-- ==== Sys2Proof/Word.lean ====
section
/-! DEFINITION. The word types of the datapath and of the register window (00_scope.md R10, R15):
every value is an unsigned fixed-width integer, so every operation is that of `BitVec`. -/

namespace Sys2Proof

/-- The spec's `u32`: a register of the window, a command word, an output, a bound (R10, R27). -/
abbrev Word := BitVec 32

/-- The spec's `u64`: `ACC`, `INC`, `ARG0`, `ARG1` (R10). -/
abbrev DWord := BitVec 64

/-- One byte lane of the host bus (20_memory.md R57). -/
abbrev Byte := BitVec 8

end Sys2Proof
end

