-- ==== Sys2Proof/Syntax.lean ====
section
/-! DEFINITION. The command set `PCG32E-CMD`: one constructor per row of spec/opcode_table.json
(30_encoding.md R82). A command has no operand fields (R81): its operands are fixed registers. -/

namespace Sys2Proof

/-- The four commands (30_encoding.md R82). -/
inductive Instr where
  /-- `SEED`, word `0x00000001` (41_seed_load.md R120). -/
  | seed
  /-- `STEP`, word `0x00000002` (42_step.md R140). -/
  | step
  /-- `BOUNDED`, word `0x00000003` (43_bounded.md R150). -/
  | bounded
  /-- `LOADST`, word `0x00000004` (41_seed_load.md R125). -/
  | loadst
deriving DecidableEq, Repr

end Sys2Proof
end

