-- ==== Sys2Proof/WellFormed.lean ====
section
/-! DEFINITION. Well-formedness: of a raw command word, field by field (30_encoding.md R80, R84), and
of a command, which has no fields and is always well-formed (R81). -/

namespace Sys2Proof

/-- A 32-bit command word split into the two fields of the one format `CMDW` (R80). -/
structure CmdWord where
  /-- Bits 3:0. -/
  opcode : BitVec 4
  /-- Bits 31:4, reserved. -/
  rsvd : BitVec 28
deriving DecidableEq, Repr

/-- `RSVD` must be zero (R80). -/
def CmdWord.reservedClear (c : CmdWord) : Bool := c.rsvd == 0#28

/-- `OPCODE` is one that R82 gives a command: 1 to 4. -/
def CmdWord.opcodeDefined (c : CmdWord) : Bool :=
  c.opcode == 1#4 || c.opcode == 2#4 || c.opcode == 3#4 || c.opcode == 4#4

/-- A raw word is well-formed when it selects a command (R84). -/
def CmdWord.wellFormed (c : CmdWord) : Bool := c.reservedClear && c.opcodeDefined

/-- No command word holds an immediate, a register number or a mode field (R81), so there is nothing in
a command to be ill-formed. -/
def Instr.wellFormed : Instr → Bool
  | .seed => true
  | .step => true
  | .bounded => true
  | .loadst => true

end Sys2Proof
end

