-- ==== Sys2Proof/Decode.lean ====
section
/-! DEFINITION. The decoder of command words, total and rejecting by name (30_encoding.md R80 to R85),
and the encoder after it. Bytes are those of the window's little-endian lanes (20_memory.md R57). -/

namespace Sys2Proof

/-- Why bytes select no command. A rejected word that the bus accepted is `CmdError(ILLEGAL_CMD)` (R84). -/
inductive DecodeReject where
  /-- `RSVD != 0` (R80, R84). Raised by `decodeWord`. -/
  | reservedBits
  /-- `OPCODE` is 0 or 5 to 15 (R82, R84). Raised by `decodeWord`. -/
  | reservedOpcode
  /-- Fewer than the four bytes that every command word has (R87). Raised by `decodeBytes`. -/
  | truncated
deriving DecidableEq, Repr

/-- What a decoder answers. -/
inductive Decoded (α : Type) where
  | ok (value : α)
  | reject (reason : DecodeReject)
deriving DecidableEq, Repr

/-- The fields of a command word (R80). -/
def CmdWord.ofWord (w : Word) : CmdWord :=
  { opcode := w.extractLsb' 0 4, rsvd := w.extractLsb' 4 28 }

/-- The command word with these fields (R80). -/
def CmdWord.toWord (c : CmdWord) : Word := c.rsvd ++ c.opcode

/-- The command an `OPCODE` selects (R82). -/
def decodeOpcode (op : BitVec 4) : Decoded Instr :=
  if op = 1#4 then .ok .seed
  else if op = 2#4 then .ok .step
  else if op = 3#4 then .ok .bounded
  else if op = 4#4 then .ok .loadst
  else .reject .reservedOpcode

/-- The command a word written to `CMD` selects (R83), or why it selects none (R84). -/
def decodeWord (w : Word) : Decoded Instr :=
  if (CmdWord.ofWord w).reservedClear then decodeOpcode (CmdWord.ofWord w).opcode
  else .reject .reservedBits

/-- The 32-bit value whose byte lane `k` is `bk` (20_memory.md R57). -/
def wordOfLanes (b0 b1 b2 b3 : Byte) : Word := b3 ++ b2 ++ b1 ++ b0

/-- Byte lane `k` of a 32-bit value: bits `[8k+7:8k]` (20_memory.md R57). -/
def laneOf (w : Word) (k : Nat) : Byte := w.extractLsb' (8 * k) 8

/-- Decode the command word at the front of a list of bytes; every command word has four (R87). -/
def decodeBytes : List Byte → Decoded (Instr × List Byte)
  | b0 :: b1 :: b2 :: b3 :: rest =>
    match decodeWord (wordOfLanes b0 b1 b2 b3) with
    | .ok i => .ok (i, rest)
    | .reject r => .reject r
  | _ => .reject .truncated

/-- The `OPCODE` of a command (R82). -/
def opcodeOf : Instr → BitVec 4
  | .seed => 1#4
  | .step => 2#4
  | .bounded => 3#4
  | .loadst => 4#4

/-- The command word of a command (R82): its `OPCODE`, and `RSVD` zero (R80). -/
def encode (i : Instr) : Word := CmdWord.toWord { opcode := opcodeOf i, rsvd := 0#28 }

/-- The four bytes of a command word, lane 0 first (20_memory.md R57). -/
def encodeBytes (i : Instr) : List Byte :=
  [laneOf (encode i) 0, laneOf (encode i) 1, laneOf (encode i) 2, laneOf (encode i) 3]

/-- The 32 bits of an instruction that the opcode table numbers `nbits` bits wide: those above `nbits`
are zero. -/
def tableWord (nbits w : Nat) : Word := BitVec.ofNat 32 (w % 2 ^ nbits)

/-- The command `decodeBytes` reads from a table row's bits laid out in the window's byte lanes. Every
command word is exactly 32 bits (R87), so a longer row is none of this hardware's. -/
def decodeTableWord (nbits w : Nat) : Option Instr :=
  if nbits ≤ 32 then
    match decodeBytes [laneOf (tableWord nbits w) 0, laneOf (tableWord nbits w) 1,
        laneOf (tableWord nbits w) 2, laneOf (tableWord nbits w) 3] with
    | .ok (i, _) => some i
    | .reject _ => none
  else none

end Sys2Proof
end

