-- ==== Sys2Proof/Machine/Datapath.lean ====
section
/-! DEFINITION. The pure functions of 40_datapath.md: they read and write no register. -/

namespace Sys2Proof.Machine

/-- `MUL`, the fixed multiplier (00_scope.md R11, 40_datapath.md R100). -/
def mul64 : DWord := 6364136223846793005#64

/-- `next`: `old * MUL + inc`, both operations mod 2^64 (R100). The factors stand the other way round: the
product is the same (`lcgNext_eq`), and the kernel does not unfold a multiplication whose SECOND factor is a
variable, where it would count `MUL` down in unary. -/
def lcgNext (old inc : DWord) : DWord := mul64 * old + inc

/-- `trunc32` (00_scope.md R16). -/
def trunc32 (v : DWord) : Word := v.setWidth 32

/-- `xorshifted`: both shifts logical, low 32 bits kept (R101). -/
def xorshifted (old : DWord) : Word := trunc32 (((old >>> 18) ^^^ old) >>> 27)

/-- `rotr32`: rotate right, for `n` in 0..31 (R102). -/
def rotr32 (x n : Word) : Word := (x >>> n) ||| (x <<< ((-n) &&& 31#32))

/-- `rot`: the top five bits of the pre-advance state (R103). -/
def rot (old : DWord) : Word := trunc32 (old >>> 59)

/-- `output`: XSH-RR of the pre-advance state (R104). -/
def output (old : DWord) : Word := rotr32 (xorshifted old) (rot old)

/-- `step`: the post-advance state, and the output of the pre-advance one (R105). -/
def lcgStep (acc inc : DWord) : DWord × Word := (lcgNext acc inc, output acc)

/-- `threshold`, for a nonzero bound (R106). -/
def threshold (bound : Word) : Word := (-bound) % bound

/-- `accept`: unsigned (R108). -/
def accept (r t : Word) : Bool := t ≤ r

/-- `reduce`, for a nonzero bound (R108). -/
def reduce (r bound : Word) : Word := r % bound

end Sys2Proof.Machine
end

