-- ==== Sys2Proof/Config.lean ====
section
/-! DEFINITION. The implementation parameters of 00_scope.md R13, and the free values: what the spec
leaves open is a constant with no body, so no proof can see what it is. -/

namespace Sys2Proof.Config

/-- `WINDOW_BYTES` (R13, 20_memory.md R50). -/
def windowBytes : Nat := 64

/-- `DATA_WIDTH`, the one width of a host access (R13, 20_memory.md R54). -/
def dataWidth : Nat := 32

/-- `NUM_CONTEXTS`, the generator states the block holds (R13, 10_state.md R25): `Block` has one. -/
def numContexts : Nat := 1

/-- `ACC_RESET` (R13): the source's default instance. -/
def accReset : DWord := 0x853c49e6748fea9b#64

/-- `INC_RESET` (R13): the source's default instance. -/
def incReset : DWord := 0xda3e39cb94b95bdb#64

/-- Which 64-byte slot of the platform's address space holds the window: the one open parameter
(R13, 93 U9). Log entry 10. -/
opaque windowIndex : Nat

/-- `PCG_BASE` (R13, 20_memory.md R51): any multiple of 64. -/
def pcgBase : Nat := windowBytes * windowIndex

/-- The unspecified 32-bit value that the `n`-th read of `ACC_LO`, `ACC_HI`, `INC_LO` or `INC_HI`
while `PHASE = BUSY` delivers (10_state.md R36, 20_memory.md R63). FREE VALUE, log entry 4. -/
opaque freeWord : Nat → Word

end Sys2Proof.Config
end

