-- ==== Sys2Proof/Machine/State.lean ====
section
/-! DEFINITION. The state of the machine: the block's ten registers of 10_state.md R40, and beside them
the environment's side of the interface as plain data (log entries 1, 2 and 4). -/

namespace Sys2Proof.Machine

/-- `PHASE`, the sequencing state (10_state.md R33). -/
inductive Phase where
  | idle
  | busy
deriving DecidableEq, Repr

/-- `ERRCODE` (10_state.md R31). The reserved values 3 to 15 are never produced, so they have no
constructor (93 U6, log entry 11). -/
inductive ErrCode where
  /-- Value 0: a command write started a command. -/
  | ok
  /-- Value 1: a command word selects no command. -/
  | illegalCmd
  /-- Value 2: `BOUNDED` was written while `BOUND = 0`. -/
  | boundZero
deriving DecidableEq, Repr

/-- The causes of a bus error (60_exceptions.md R201 to R205). A bus error is the error response to ONE
host access: it changes nothing in the block and later accesses are unaffected (R206), so a step that
raises one goes on to a next state and the cause stands in its `Response`. No step ends in a fault.
Safe: see log entry 3. -/
inductive Fault where
  /-- Cause 1 (R201): raised by a read or write with `off mod 4 != 0`. Safe. -/
  | misaligned
  /-- Cause 2 (R202): raised by a read or write whose width is not 32 bits. Safe. -/
  | badWidth
  /-- Cause 3 (R203): raised by a read or write of a reserved offset. Safe. -/
  | unmapped
  /-- Cause 4 (R204): raised by a write to a read-only register. Safe. -/
  | readOnly
  /-- Cause 5 (R205): raised by a write while `PHASE = BUSY`. Safe. -/
  | busy
deriving DecidableEq, Repr

/-- Why an instruction has no meaning in the model. -/
inductive Refusal where
  /-- Raised by `exec` for a command that has no meaning yet; none is left. Safe: the machine stops. -/
  | notModelled (mnemonic : String)
deriving DecidableEq, Repr

/-- One entry of a host's stream of accesses (20_memory.md R65): the two bus primitives of
00_scope.md R17, and the two lines of 44_host_api.md whose number of accesses depends on what is read. -/
inductive HostOp where
  /-- `BusRead(off, width)`. -/
  | read (off : Fin 64) (width : Nat)
  /-- `BusWrite(off, width, data)`. The data of an access that is not 32 bits wide is never looked at
  (R54), so only a 32-bit value is carried (log entry 13). -/
  | write (off : Fin 64) (width : Nat) (data : Word)
  /-- `POLL` (R170): read `STATUS`, again until its bit 0 is 0. -/
  | poll
  /-- The check of R173: read `STATUS`; if bits 7:4 are 2 the call fails, and the next `n` entries of the
  same host are not performed. -/
  | failIfBoundZero (n : Nat)
deriving DecidableEq, Repr

/-- Who moves (00_scope.md R18, 20_memory.md R68, 70_reset_and_hazards.md R231). -/
inductive Turn where
  /-- The platform lets bus master `k` perform its next access. -/
  | host (k : Nat)
  /-- The engine takes one transition. -/
  | engine
  /-- The platform asserts reset. -/
  | reset
deriving DecidableEq, Repr

/-- What a performed access answered to its host (60_exceptions.md R200). -/
inductive Response where
  /-- An accepted read, and the 32 bits it delivers. -/
  | data (value : Word)
  /-- An accepted write: it completes normally, a command error included (R210). -/
  | written
  /-- A refused access: an error response, no data. -/
  | busError (cause : Fault)
  /-- The host's call failed with this code (44_host_api.md R173): its value must not be used. -/
  | callFailed (code : ErrCode)
deriving DecidableEq, Repr

/-- The block's registers: the tuple of 10_state.md R40. -/
structure Block where
  /-- `ACC` (R20). -/
  acc : DWord
  /-- `INC[63:1]`, the stored field of `INC`; `INC[0]` is hardwired to 1 (R22). `Block.inc` reads the
  register. -/
  incTop : BitVec 63
  /-- `RESULT` (R37). -/
  result : Word
  /-- `BOUND` (R29). -/
  bound : Word
  /-- `ARG0` (R28). -/
  arg0 : DWord
  /-- `ARG1` (R28). -/
  arg1 : DWord
  /-- `ERRCODE` (R31). -/
  errcode : ErrCode
  /-- `PHASE` (R33). -/
  phase : Phase
  /-- `OP`, hidden: the command in progress, meaningful only while `BUSY` (R34). -/
  op : Instr
  /-- `THRESH`, hidden: meaningful only while `BUSY` with `OP = BOUNDED` (R35). -/
  thresh : Word
deriving DecidableEq, Repr

/-- One bus master of the host port (20_memory.md R68): the software of one host, as far as the block has to
do with it. The model's own; log entries 1 and 18. -/
structure Master where
  /-- The accesses it has not yet performed, oldest first: the order in which it issues them (R65). -/
  pending : List HostOp
  /-- What the accesses it has performed answered, newest first. -/
  answers : List Response
deriving DecidableEq, Repr

/-- The machine: the block, and what its environment does to it. -/
structure State where
  block : Block
  /-- The model's own: the bus masters that share the host port, by their number (R68). One that is not
  listed has nothing pending and has performed nothing. Log entry 18. -/
  masters : List Master
  /-- The model's own: who moves next, for as long as the environment has said it; then the engine moves
  while `BUSY`, and the first host with an access pending otherwise (R236). Log entry 2. -/
  turns : List Turn
  /-- The model's own: how many free values have been handed out (R36). Log entry 4. -/
  draws : Nat
deriving DecidableEq, Repr

/-- The block right after reset (70_reset_and_hazards.md R230). `OP` and `THRESH` are unspecified there:
DESIGN CHOICE, log entries 5 and 6. -/
def Block.reset : Block :=
  { acc := Config.accReset
    incTop := Config.incReset.extractLsb' 1 63
    result := 0#32
    bound := 0#32
    arg0 := 0#64
    arg1 := 0#64
    errcode := .ok
    phase := .idle
    op := .seed
    thresh := 0#32 }

/-- The machine right after reset, with no access pending (log entry 7). -/
def State.reset : State :=
  { block := Block.reset, masters := [], turns := [], draws := 0 }

end Sys2Proof.Machine
end

