-- ==== Sys2Proof/Machine/Flags.lean ====
section
/-! DEFINITION. The status register (10_state.md R30 to R32): `BUSY` and `ERRCODE` are its only fields. -/

namespace Sys2Proof.Machine

/-- The four bits of `ERRCODE` (10_state.md R31). -/
def ErrCode.code : ErrCode → BitVec 4
  | .ok => 0#4
  | .illegalCmd => 1#4
  | .boundZero => 2#4

/-- `STATUS.BUSY` is 1 exactly when `PHASE = BUSY` (R33). -/
def Phase.busyBit : Phase → BitVec 1
  | .idle => 0#1
  | .busy => 1#1

/-- `STATUS`, computed: bit 0 `BUSY`, bits 7:4 `ERRCODE`, the rest 0 (R30, R40). -/
def Block.status (b : Block) : Word :=
  (b.errcode.code.setWidth 32 <<< 4) ||| b.phase.busyBit.setWidth 32

/-- `STATUS.BUSY` of a status word (R170). -/
def statusBusy (v : Word) : Bool := v.getLsbD 0

/-- `STATUS.ERRCODE` of a status word (R173). -/
def statusErrcode (v : Word) : BitVec 4 := v.extractLsb' 4 4

/-- Write `ERRCODE` and nothing else (R31). -/
def Block.setErrcode (b : Block) (e : ErrCode) : Block := { b with errcode := e }

end Sys2Proof.Machine
end

