-- ==== Sys2Proof/Machine/Operands.lean ====
section
/-! DEFINITION. The registers as the host and the commands see them: the register map of 10_state.md
R27, the two halves of a 64-bit register (R58), the hardwired bit of `INC` (R22), and the byte lanes of
the window (R57). -/

namespace Sys2Proof.Machine

/-- The registers of the window (R27). -/
inductive Reg where
  | cmd | status | result | bound
  | arg0Lo | arg0Hi | arg1Lo | arg1Hi
  | accLo | accHi | incLo | incHi
deriving DecidableEq, Repr

/-- The register at an offset; the reserved offsets, and those inside a register, have none (R27). -/
def Reg.ofOffset (off : Fin 64) : Option Reg :=
  match off.val with
  | 0x00 => some .cmd
  | 0x04 => some .status
  | 0x08 => some .result
  | 0x0C => some .bound
  | 0x10 => some .arg0Lo
  | 0x14 => some .arg0Hi
  | 0x18 => some .arg1Lo
  | 0x1C => some .arg1Hi
  | 0x20 => some .accLo
  | 0x24 => some .accHi
  | 0x28 => some .incLo
  | 0x2C => some .incHi
  | _ => none

/-- The offset of a register (R27). -/
def Reg.offset : Reg → Fin 64
  | .cmd => 0x00
  | .status => 0x04
  | .result => 0x08
  | .bound => 0x0C
  | .arg0Lo => 0x10
  | .arg0Hi => 0x14
  | .arg1Lo => 0x18
  | .arg1Hi => 0x1C
  | .accLo => 0x20
  | .accHi => 0x24
  | .incLo => 0x28
  | .incHi => 0x2C

/-- The registers that a host write is refused on (R27, 60_exceptions.md R204). -/
def Reg.readOnly : Reg → Bool
  | .status | .result | .accLo | .accHi | .incLo | .incHi => true
  | .cmd | .bound | .arg0Lo | .arg0Hi | .arg1Lo | .arg1Hi => false

/-- `X_LO = X[31:0]` (R58). -/
def loHalf (v : DWord) : Word := v.extractLsb' 0 32

/-- `X_HI = X[63:32]` (R58). -/
def hiHalf (v : DWord) : Word := v.extractLsb' 32 32

/-- `X[31:0] <- v`. -/
def setLo (x : DWord) (v : Word) : DWord := hiHalf x ++ v

/-- `X[63:32] <- v`. -/
def setHi (x : DWord) (v : Word) : DWord := v ++ loHalf x

/-- `INC`: the stored field above a bit 0 that reads 1 at all times (R22). -/
def Block.inc (b : Block) : DWord := b.incTop ++ 1#1

/-- `INC[63:1] <- v[63:1]`; bit 0 of `v` is ignored (R22, R126). -/
def Block.setInc (b : Block) (v : DWord) : Block := { b with incTop := v.extractLsb' 1 63 }

/-- The value the spec gives a read of a register (20_memory.md R63), none where R63 says any value. -/
def Block.readReg (b : Block) : Reg → Option Word
  | .cmd => some 0#32
  | .status => some b.status
  | .result => some b.result
  | .bound => some b.bound
  | .arg0Lo => some (loHalf b.arg0)
  | .arg0Hi => some (hiHalf b.arg0)
  | .arg1Lo => some (loHalf b.arg1)
  | .arg1Hi => some (hiHalf b.arg1)
  | .accLo => if b.phase = .idle then some (loHalf b.acc) else none
  | .accHi => if b.phase = .idle then some (hiHalf b.acc) else none
  | .incLo => if b.phase = .idle then some (loHalf b.inc) else none
  | .incHi => if b.phase = .idle then some (hiHalf b.inc) else none

/-- The unspecified value a read delivers where `readReg` has none: any word, with bit 0 = 1 for
`INC_LO` (R63). `v` is the free value. -/
def Reg.openValue (r : Reg) (v : Word) : Word := if r = .incLo then v ||| 1#32 else v

/-- A write to an operand register (20_memory.md R64). `CMD` stores nothing, and the read-only registers
are refused before. -/
def Block.writeReg (b : Block) (r : Reg) (v : Word) : Block :=
  match r with
  | .bound => { b with bound := v }
  | .arg0Lo => { b with arg0 := setLo b.arg0 v }
  | .arg0Hi => { b with arg0 := setHi b.arg0 v }
  | .arg1Lo => { b with arg1 := setLo b.arg1 v }
  | .arg1Hi => { b with arg1 := setHi b.arg1 v }
  | .cmd | .status | .result | .accLo | .accHi | .incLo | .incHi => b

/-- The byte that lane `off mod 4` carries of the register at `off` (R57), where R63 gives the register
a value; the reserved offsets have none. The view a host has of the window as bytes (92 D4). -/
def Block.windowByte (b : Block) (off : Fin 64) : Option Byte :=
  match Reg.ofOffset ⟨4 * (off.val / 4), by omega⟩ with
  | none => none
  | some r =>
    match b.readReg r with
    | none => none
    | some w => some (w.extractLsb' (8 * (off.val % 4)) 8)

/-- The offset the block sees of a platform address, none outside the window (20_memory.md R51). -/
def windowOffset (base addr : Nat) : Option (Fin 64) :=
  if h : base ≤ addr ∧ addr < base + 64 then some ⟨addr - base, by omega⟩ else none

end Sys2Proof.Machine
end

