-- ==== Sys2Proof/Machine/Ops.lean ====
section
/-! DEFINITION. The shared operations: the two ways of reporting an error (60_exceptions.md R200), the
bus checks in their order (R207), a host read, and the start and the running of a command (R86). The
block has no trap entry and no return from one (R215, R216): an error is reported in place. -/

namespace Sys2Proof.Machine

/-- A bus master that has nothing pending and has performed nothing. -/
def Master.silent : Master := { pending := [], answers := [] }

/-- The bus master of a number; one that is not listed is silent. -/
def masterAt : List Master → Nat → Master
  | [], _ => Master.silent
  | m :: _, 0 => m
  | _ :: ms, k + 1 => masterAt ms k

/-- Put a bus master at a number, with silent ones before it where the list ends earlier. -/
def setMasterAt : List Master → Nat → Master → List Master
  | [], 0, m => [m]
  | [], k + 1, m => Master.silent :: setMasterAt [] k m
  | _ :: ms, 0, m => m :: ms
  | m' :: ms, k + 1, m => m' :: setMasterAt ms k m

/-- The bus master of a number. -/
abbrev State.master (s : State) (k : Nat) : Master := masterAt s.masters k

/-- Write one bus master and nothing else. -/
def State.setMaster (s : State) (k : Nat) (m : Master) : State :=
  { s with masters := setMasterAt s.masters k m }

/-- Replace what host `k` has pending. -/
def State.setPending (s : State) (k : Nat) (ops : List HostOp) : State :=
  s.setMaster k { s.master k with pending := ops }

/-- Answer an access of host `k`. -/
def State.respond (s : State) (k : Nat) (r : Response) : State :=
  s.setMaster k { s.master k with answers := r :: (s.master k).answers }

/-- `raise BusError(cause)`: an error response to the access of host `k` and no other effect
(00_scope.md R17, R206). -/
def State.raiseBusError (s : State) (k : Nat) (cause : Fault) : State := s.respond k (.busError cause)

/-- `raise CmdError(code)`: `ERRCODE` is set and nothing is started (00_scope.md R17, R210). -/
def Block.raiseCmdError (b : Block) (code : ErrCode) : Block := b.setErrcode code

/-- The number of a bus-error cause (R201 to R205). -/
def Fault.number : Fault → Nat
  | .misaligned => 1
  | .badWidth => 2
  | .unmapped => 3
  | .readOnly => 4
  | .busy => 5

/-- The bus error of an access, the first that applies in the order of R207; none when the access is
accepted. -/
def busCheck (write : Bool) (off : Fin 64) (width : Nat) (phase : Phase) : Option Fault :=
  if off.val % 4 ≠ 0 then some .misaligned
  else if width ≠ Config.dataWidth then some .badWidth
  else match Reg.ofOffset off with
    | none => some .unmapped
    | some r =>
      if write && r.readOnly then some .readOnly
      else if write && decide (phase = .busy) then some .busy
      else none

/-- Deliver a register's value to host `k`: the one the spec gives, or a fresh free value (R63). -/
def State.deliver (s : State) (k : Nat) (r : Reg) : State :=
  match s.block.readReg r with
  | some v => s.respond k (.data v)
  | none => { s.respond k (.data (r.openValue (Config.freeWord s.draws))) with draws := s.draws + 1 }

/-- `BusRead(off, width)` by host `k` (20_memory.md R63). -/
def State.busRead (s : State) (k : Nat) (off : Fin 64) (width : Nat) : State :=
  match busCheck false off width s.block.phase with
  | some cause => s.raiseBusError k cause
  | none =>
    match Reg.ofOffset off with
    | some r => s.deliver k r
    | none => s

/-- The part of `issue` that starts a command (30_encoding.md R86). -/
def Block.start (b : Block) (i : Instr) : Block :=
  { b with errcode := .ok, op := i, phase := .busy }

/-- What a command does in one step: its start when the block is idle, its engine transition while it is
the command in progress (R33, R34). While another command is in progress a command has no effect
(60_exceptions.md R205; no step comes here so, log entry 8). -/
def State.runCommand (s : State) (i : Instr) (start transition : Block → Block) : State :=
  match s.block.phase with
  | .idle => { s with block := start s.block }
  | .busy => if s.block.op = i then { s with block := transition s.block } else s

end Sys2Proof.Machine
end

