-- ==== Sys2Proof/Machine/Bounded.lean ====
section
/-! DEFINITION. `BOUNDED` (43_bounded.md): one engine transition per draw. -/

namespace Sys2Proof.Machine

/-- The start of `BOUNDED`: refused while `BOUND = 0` (R151), else the threshold is computed, once
(R152). -/
def Block.boundedStart (b : Block) : Block :=
  if b.bound = 0#32 then b.raiseCmdError .boundZero
  else { b.start .bounded with thresh := threshold b.bound }

/-- One draw transition (R153): a rejected draw only advances `ACC`. -/
def Block.drawTransition (b : Block) : Block :=
  let old := b.acc
  let b := { b with acc := lcgNext old b.inc }
  let r := output old
  if accept r b.thresh then { b with result := reduce r b.bound, phase := .idle } else b

/-- `BOUNDED` (R150 to R155). -/
def execBounded (s : State) : Host.Outcome State Fault Refusal :=
  .next (s.runCommand .bounded Block.boundedStart Block.drawTransition)

/-- The command's effect on `(ACC, RESULT)` as one function (R154), with fuel for the draws it may take;
none when the fuel runs out first. -/
def boundedDraw (inc : DWord) (bound : Word) : Nat → DWord → Option (DWord × Word)
  | 0, _ => none
  | fuel + 1, acc =>
    let (acc', r) := lcgStep acc inc
    if accept r (threshold bound) then some (acc', reduce r bound) else boundedDraw inc bound fuel acc'

end Sys2Proof.Machine
end

