-- ==== Sys2Proof/Machine/SeedLoad.lean ====
section
/-! DEFINITION. `SEED` and `LOADST` (41_seed_load.md). -/

namespace Sys2Proof.Machine

/-- The engine transition of `SEED`: the source's five steps in order (R121). -/
def Block.seedTransition (b : Block) : Block :=
  let initState := b.arg0
  let initSeq := b.arg1
  let acc : DWord := 0#64
  let inc := (initSeq <<< 1) ||| 1#64
  let acc := (lcgStep acc inc).1
  let acc := acc + initState
  let acc := (lcgStep acc inc).1
  { b.setInc inc with acc := acc, phase := .idle }

/-- `SEED` (R120 to R122). -/
def execSeed (s : State) : Host.Outcome State Fault Refusal :=
  .next (s.runCommand .seed (·.start .seed) Block.seedTransition)

/-- The engine transition of `LOADST` (R126). -/
def Block.loadTransition (b : Block) : Block :=
  { b.setInc b.arg1 with acc := b.arg0, phase := .idle }

/-- `LOADST` (R125 to R127). -/
def execLoadst (s : State) : Host.Outcome State Fault Refusal :=
  .next (s.runCommand .loadst (·.start .loadst) Block.loadTransition)

end Sys2Proof.Machine
end

