-- ==== Sys2Proof/Machine/StepCommand.lean ====
section
/-! DEFINITION. `STEP` (42_step.md). -/

namespace Sys2Proof.Machine

/-- The engine transition of `STEP`: the output is that of the old `ACC` (R141). -/
def Block.stepTransition (b : Block) : Block :=
  { b with acc := lcgNext b.acc b.inc, result := output b.acc, phase := .idle }

/-- `STEP` (R140 to R142). -/
def execStep (s : State) : Host.Outcome State Fault Refusal :=
  .next (s.runCommand .step (·.start .step) Block.stepTransition)

end Sys2Proof.Machine
end

