-- ==== Sys2Proof/Machine/Dispatch.lean ====
section
/-! DEFINITION. One arm per command, each a direct call of its meaning. -/

namespace Sys2Proof.Machine

def exec (i : Instr) (s : State) : Host.Outcome State Fault Refusal :=
  match i with
  | .seed => Sys2Proof.Machine.execSeed s
  | .step => Sys2Proof.Machine.execStep s
  | .bounded => Sys2Proof.Machine.execBounded s
  | .loadst => Sys2Proof.Machine.execLoadst s

end Sys2Proof.Machine
end

