-- ==== Sys2Proof/Machine/Bus.lean ====
section
/-! DEFINITION. The turns of the machine (00_scope.md R18): a host access, an engine transition, a reset.
No turn stops the machine: a bus error is the response to one access (60_exceptions.md R206). -/

namespace Sys2Proof.Machine

/-- `issue(w)`: a command word that the bus accepted (30_encoding.md R86, R84). -/
def issueWord (w : Word) (s : State) : Host.Outcome State Fault Refusal :=
  match decodeWord w with
  | .ok i => exec i s
  | .reject _ => .next { s with block := s.block.raiseCmdError .illegalCmd }

/-- `BusWrite(off, width, v)` by host `k` (20_memory.md R64). -/
def busWrite (k : Nat) (off : Fin 64) (width : Nat) (v : Word) (s : State) :
    Host.Outcome State Fault Refusal :=
  match busCheck true off width s.block.phase with
  | some cause => .next (s.raiseBusError k cause)
  | none =>
    match Reg.ofOffset off with
    | some .cmd => issueWord v (s.respond k .written)
    | some r => .next { s.respond k .written with block := s.block.writeReg r v }
    | none => .next s

/-- One read of `STATUS` by `POLL` (44_host_api.md R170): while bit 0 is 1 the loop goes on, at host `k`'s
own next access. Between two reads the engine, or another host, may move (R178). -/
def State.pollStatus (s : State) (k : Nat) : State :=
  let t := s.respond k (.data s.block.status)
  if statusBusy s.block.status then t.setPending k (.poll :: (t.master k).pending) else t

/-- The `ERRCODE` check of `pcg.boundedrand` (44_host_api.md R173): on `BOUND_ZERO` the call fails and
the rest of it, the next `n` entries of host `k`, is not performed. The other hosts go on (R178). -/
def State.checkBoundZero (s : State) (k n : Nat) : State :=
  let t := s.respond k (.data s.block.status)
  if statusErrcode s.block.status = ErrCode.boundZero.code then
    (t.respond k (.callFailed .boundZero)).setPending k ((t.master k).pending.drop n)
  else t

/-- Perform one entry of host `k`'s stream, already taken off it. -/
def perform (k : Nat) (op : HostOp) (s : State) : Host.Outcome State Fault Refusal :=
  match op with
  | .read off width => .next (s.busRead k off width)
  | .write off width v => busWrite k off width v s
  | .poll => .next (s.pollStatus k)
  | .failIfBoundZero n => .next (s.checkBoundZero k n)

/-- The turn of host `k`: its oldest access, performed whole before the next access of any host
(20_memory.md R65, R68). With none pending nothing happens (60_exceptions.md R223). -/
def hostTurn (k : Nat) (s : State) : Host.Outcome State Fault Refusal :=
  match (s.master k).pending with
  | [] => .next s
  | op :: rest => perform k op (s.setPending k rest)

/-- The engine's turn: one transition of the command in progress (R18, R33). An idle engine has none
(60_exceptions.md R223, log entry 9). -/
def engineTurn (s : State) : Host.Outcome State Fault Refusal :=
  match s.block.phase with
  | .idle => .next s
  | .busy => exec s.block.op s

/-- Reset, in either phase (70_reset_and_hazards.md R231): the block takes the state of R230. The hosts'
streams are the hosts' and stay (log entry 16). -/
def resetTurn (s : State) : Host.Outcome State Fault Refusal :=
  .next { s with block := Block.reset }

/-- The first bus master that has an access pending; where none has, one that is not listed. -/
def firstPending : List Master → Nat
  | [] => 0
  | m :: ms => if m.pending.isEmpty then firstPending ms + 1 else 0

/-- Who moves next: as `turns` says; when it says nothing, the engine while `BUSY` and the first host with an
access pending otherwise (R236, log entry 2). -/
def State.nextTurn (s : State) : Turn :=
  match s.turns with
  | t :: _ => t
  | [] => match s.block.phase with
    | .busy => .engine
    | .idle => .host (firstPending s.masters)

/-- The state with its next turn taken off `turns`. -/
def State.dropTurn (s : State) : State := { s with turns := s.turns.tail }

/-- Let the given agent move. -/
def takeTurn (t : Turn) (s : State) : Host.Outcome State Fault Refusal :=
  match t with
  | .host k => hostTurn k s
  | .engine => engineTurn s
  | .reset => resetTurn s

/-- Host 0's stream with one more access at its front, and that host to move. -/
def State.placeAccess (s : State) (op : HostOp) : State :=
  { s.setPending 0 (op :: (s.master 0).pending) with turns := .host 0 :: s.turns }

end Sys2Proof.Machine
end

