-- ==== Sys2Proof/Machine/Step.lean ====
section
/-! DEFINITION. One step of the machine: one host access, one engine transition or one reset
(00_scope.md R18). -/

namespace Sys2Proof.Machine

/-- One step (R18): the next turn is taken off, and its agent moves. -/
def step (s : State) : Host.Outcome State Fault Refusal :=
  takeTurn s.nextTurn s.dropTurn

/-- `s` with a write of the command word to `CMD` as host 0's very next access, and that host to move: a command
is the value of one accepted write to `CMD` (20_memory.md R69). A row longer than 32 bits is written with
its own width, which the bus refuses (R54). Log entry 7. -/
def State.withFetchWord (s : State) (nbits w : Nat) : State :=
  s.placeAccess (.write (Reg.offset .cmd) (max nbits Config.dataWidth) (tableWord nbits w))

end Sys2Proof.Machine
end

