-- ==== Sys2Proof/Machine/HostApi.lean ====
section
/-! DEFINITION. Host programs: the assembly lines of 30_encoding.md R88, the listing triples of R89, and
the pseudo-instructions of 44_host_api.md as the accesses they expand to. Host software is out of the
block's scope (00_scope.md R7); what a host keeps of the values it read is in its `answers`. They are not
atomic (R178): each entry is an access of its own, and other hosts may move between two of them. -/

namespace Sys2Proof.Machine

/-- One line of a host program: one host access (R88). -/
inductive AsmLine where
  /-- `WR <reg>, <imm32>`. -/
  | wr (reg : Reg) (imm : Word)
  /-- `RD <reg>`. -/
  | rd (reg : Reg)
  /-- `CMD <mnemonic>`. -/
  | cmd (i : Instr)
  /-- `CMD.W <imm32>`. -/
  | cmdW (imm : Word)
deriving DecidableEq, Repr

/-- The listing triple `(R|W, off, data)` of an access; a read has no data (R89). -/
structure Listing where
  write : Bool
  off : Fin 64
  data : Option Word
deriving DecidableEq, Repr

/-- The bus access of a line (R88). -/
def AsmLine.access : AsmLine → HostOp
  | .wr r imm => .write r.offset 32 imm
  | .rd r => .read r.offset 32
  | .cmd i => .write Reg.cmd.offset 32 (encode i)
  | .cmdW imm => .write Reg.cmd.offset 32 imm

/-- The listing encoding of a line (R89). -/
def AsmLine.listing : AsmLine → Listing
  | .wr r imm => { write := true, off := r.offset, data := some imm }
  | .rd r => { write := false, off := r.offset, data := none }
  | .cmd i => { write := true, off := Reg.cmd.offset, data := some (encode i) }
  | .cmdW imm => { write := true, off := Reg.cmd.offset, data := some imm }

/-- Write a 64-bit value to the two operand registers `lo` and `hi`. -/
def writePair (lo hi : Reg) (v : DWord) : List HostOp :=
  [AsmLine.access (.wr lo (loHalf v)), AsmLine.access (.wr hi (hiHalf v))]

/-- `pcg.srandom A, B` (R171). -/
def pcgSrandom (a b : DWord) : List HostOp :=
  writePair .arg0Lo .arg0Hi a ++ writePair .arg1Lo .arg1Hi b ++ [AsmLine.access (.cmd .seed), .poll]

/-- `pcg.random` (R172): the last answer is its value. -/
def pcgRandom : List HostOp :=
  [AsmLine.access (.cmd .step), .poll, AsmLine.access (.rd .result)]

/-- `pcg.boundedrand b` (R173): the last answer is its value, or that the call failed. -/
def pcgBoundedrand (b : Word) : List HostOp :=
  [AsmLine.access (.wr .bound b), AsmLine.access (.cmd .bounded), .failIfBoundZero 2, .poll,
    AsmLine.access (.rd .result)]

/-- `pcg.restore X, Y` (R174). -/
def pcgRestore (x y : DWord) : List HostOp :=
  writePair .arg0Lo .arg0Hi x ++ writePair .arg1Lo .arg1Hi y ++ [AsmLine.access (.cmd .loadst), .poll]

/-- `pcg.save` (R175): the last four answers hold the state. -/
def pcgSave : List HostOp :=
  [AsmLine.access (.rd .accLo), AsmLine.access (.rd .accHi), AsmLine.access (.rd .incLo),
    AsmLine.access (.rd .incHi)]

/-- A caller-held state `S = (S.acc, S.inc)` in host storage (R176). -/
structure ExplicitState where
  acc : DWord
  inc : DWord
deriving DecidableEq, Repr

/-- The state that a completed `pcg.save` read (R175), from its host's answers, newest
first. -/
def savedState : List Response → Option ExplicitState
  | .data incHi :: .data incLo :: .data accHi :: .data accLo :: _ =>
    some { acc := accHi ++ accLo, inc := incHi ++ incLo }
  | _ => none

/-- `seed(S, A, B)` (R176). -/
def explicitSeed (a b : DWord) : List HostOp := pcgSrandom a b ++ pcgSave

/-- `step(S)` (R176). -/
def explicitStep (s : ExplicitState) : List HostOp := pcgRestore s.acc s.inc ++ pcgRandom ++ pcgSave

/-- `boundedDraw(S, b)` (R176). With `b = 0` the `pcg.boundedrand` inside fails, and R176 does not say whether
the `pcg.save` after it is still performed. DESIGN CHOICE, log entry 20: it is performed, so that the failed
call drops its own two entries and no more. -/
def explicitBoundedDraw (s : ExplicitState) (b : Word) : List HostOp :=
  pcgRestore s.acc s.inc ++ pcgBoundedrand b ++ pcgSave

/-- The source's serialized form of a state: 16 bytes, `accumulator` then `streamSelector`, each in
little-endian order (20_memory.md R58, 92 D26). -/
def ExplicitState.serialized (s : ExplicitState) : List Byte :=
  (List.range 8).map (fun k => s.acc.extractLsb' (8 * k) 8) ++
    (List.range 8).map (fun k => s.inc.extractLsb' (8 * k) 8)

end Sys2Proof.Machine
end

