-- ==== Sys2Proof/Safety.lean ====
section
/-! DEFINITION. What claims speak of: the invariant of the block, the answer to an access, and
the runs in which the host made no error. -/

namespace Sys2Proof.Machine

/-- What holds of the block whenever a command is in progress: the write that started it set `ERRCODE` to
`OK` and nothing writes it until the command completes (10_state.md R31, 60_exceptions.md R205); and a
`BOUNDED` in progress has a nonzero bound whose threshold stands in `THRESH` (10_state.md R35,
20_memory.md R62). -/
abbrev Block.Inv (b : Block) : Prop :=
  (b.phase = .busy → b.errcode = .ok) ∧
  (b.phase = .busy → b.op = .bounded → b.bound ≠ 0#32 ∧ b.thresh = threshold b.bound)

/-- The state after the turn of host `k` took the access in front off its stream and answered it with `r`. -/
def State.answered (s : State) (k : Nat) (rest : List HostOp) (r : Response) : State :=
  { s.setMaster k { pending := rest, answers := r :: (s.master k).answers } with turns := s.turns.tail }

/-- No access of host `k` so far was refused on the bus: the platform may end a host program at the first
error response (93 U12, log entry 3). -/
def State.noBusError (s : State) (k : Nat) : Bool :=
  (s.master k).answers.all fun r => match r with
    | .busError _ => false
    | .data _ | .written | .callFailed _ => true

/-- Host `k`'s next access uses `RESULT` although the last command write was refused with `BOUND_ZERO`: it
would read a stale value (93 U1, log entry 15). -/
def State.usesStaleResult (s : State) (k : Nat) : Bool :=
  match (s.master k).pending with
  | .read off _ :: _ => decide (off = Reg.result.offset) && decide (s.block.errcode = .boundZero)
  | _ => false

/-- Host `k` has made no error so far and is about to make none. -/
def State.hostSafe (s : State) (k : Nat) : Bool := s.noBusError k && !s.usesStaleResult k

end Sys2Proof.Machine
end

