-- ==== Sys2Proof/Certificates/Slice0/Obligations.lean ====
section
/-! DEFINITION. The statements for the provers. Each docstring names the rule of spec/ it formalises. A
command has two parts, so `exec i s` is the START of `i` in an idle state and its ENGINE TRANSITION in a
busy state whose `OP` is `i` (30_encoding.md R86, 10_state.md R33). -/

open Sys2Proof Sys2Proof.Machine

/-! ## Encoding -/

/-- Decoding and encoding agree on bytes (30_encoding.md R80, R82, R87; lanes of 20_memory.md R57): the
decoder answers command `i` and a rest exactly when the bytes are `i`'s four bytes and that rest. -/
def Obligations.DecodingAnswersExactlyTheEncodedCommands : Prop :=
  ∀ (bytes : List Byte) (i : Instr) (rest : List Byte),
    decodeBytes bytes = .ok (i, rest) ↔ bytes = encodeBytes i ++ rest

/-- 30_encoding.md R80 and R82: bits 31:4 must be zero, and bits 3:0 select the command. -/
def Obligations.OpcodeFieldSelectsTheCommand : Prop :=
  ∀ (w : Word) (i : Instr), decodeWord w = .ok i ↔
    w.extractLsb' 4 28 = 0#28 ∧
      ((w.extractLsb' 0 4 = 0x1#4 ∧ i = .seed) ∨ (w.extractLsb' 0 4 = 0x2#4 ∧ i = .step) ∨
       (w.extractLsb' 0 4 = 0x3#4 ∧ i = .bounded) ∨ (w.extractLsb' 0 4 = 0x4#4 ∧ i = .loadst))

/-- Exactly four words select a command, and every other word is rejected by the name of what is wrong
with it. The spec marks the first part as derived (30_encoding.md, Decoding); the names are the model's. -/
def Obligations.OtherWordsAreRejectedByName : Prop :=
  ∀ w : Word,
    ((∃ i, decodeWord w = .ok i) ↔ w = 1#32 ∨ w = 2#32 ∨ w = 3#32 ∨ w = 4#32) ∧
    (16 ≤ w.toNat → decodeWord w = .reject .reservedBits) ∧
    (w.toNat = 0 ∨ (5 ≤ w.toNat ∧ w.toNat < 16) → decodeWord w = .reject .reservedOpcode)

/-- Words of spec/opcode_table.json written out bit by bit (sanity). -/
def Obligations.TableWordsDecodeToTheirCommands : Prop :=
  decodeWord 0b00000000000000000000000000000001#32 = .ok .seed ∧
  decodeWord 0b00000000000000000000000000000010#32 = .ok .step ∧
  decodeWord 0b00000000000000000000000000000011#32 = .ok .bounded ∧
  decodeWord 0b00000000000000000000000000000100#32 = .ok .loadst ∧
  decodeWord 0b00000000000000000000000000010001#32 = .reject .reservedBits ∧
  decodeWord 0b00000000000000000000000000000101#32 = .reject .reservedOpcode

/-! ## A step runs the decoded command -/

/-- A write of a word to `CMD` that the idle block accepts runs the command the word decodes to
(20_memory.md R64, 30_encoding.md R86), whichever host wrote it. Around `exec`, the step takes the access off
that host's stream and answers it (log entries 1, 2 and 18). -/
def Obligations.StepRunsTheDecodedCommand : Prop :=
  ∀ (s : State) (k : Nat) (w : Word) (rest : List HostOp) (i : Instr),
    s.nextTurn = .host k → s.block.phase = .idle → (s.master k).pending = .write 0x00 32 w :: rest →
    decodeWord w = .ok i → step s = exec i (s.answered k rest .written)

/-- An engine transition runs the command in progress (00_scope.md R18, 10_state.md R34). -/
def Obligations.EngineTurnRunsTheCommandInProgress : Prop :=
  ∀ s : State, s.nextTurn = .engine → s.block.phase = .busy →
    step s = exec s.block.op { s with turns := s.turns.tail }

/-- A command word placed where the machine takes its next one is run by the very next step (log
entry 7). -/
def Obligations.PlacedCommandWordRunsNext : Prop :=
  ∀ (s : State) (w : Nat) (i : Instr), s.block.phase = .idle → w < 2 ^ 32 →
    decodeTableWord 32 w = some i →
    step (s.withFetchWord 32 w) = exec i (s.respond 0 .written)

/-- 30_encoding.md R84, 60_exceptions.md R208: an illegal word sets `ERRCODE` to 1 and nothing else,
whatever `BOUND` holds. -/
def Obligations.IllegalCommandWordOnlySetsErrcode : Prop :=
  ∀ (s : State) (k : Nat) (w : Word) (rest : List HostOp),
    s.nextTurn = .host k → s.block.phase = .idle → (s.master k).pending = .write 0x00 32 w :: rest →
    (w.extractLsb' 0 4 = 0x0#4 ∨ 0x5 ≤ (w.extractLsb' 0 4).toNat ∨ w.extractLsb' 4 28 ≠ 0#28) →
    ErrCode.illegalCmd.code = 1#4 ∧
    step s = .next { s.answered k rest .written with block := { s.block with errcode := .illegalCmd } }

/-! ## Starts -/

/-- The start of `SEED`, `STEP` and `LOADST` (30_encoding.md R86; 41_seed_load.md R120, R125; 42_step.md
R140): no command error, and nothing but `ERRCODE`, `OP` and `PHASE` changes. -/
def Obligations.SeedStepAndLoadstStartFromIdle : Prop :=
  ∀ (i : Instr) (s : State), i = .seed ∨ i = .step ∨ i = .loadst → s.block.phase = .idle →
    exec i s = .next { s with block := { s.block with errcode := .ok, op := i, phase := .busy } }

/-- 43_bounded.md R152: the start of `BOUNDED` computes the threshold, `(-bound) mod bound`, and no draw
computes it again. -/
def Obligations.BoundedStartComputesTheThresholdOnce : Prop :=
  (∀ s : State, s.block.phase = .idle → s.block.bound ≠ 0#32 →
    exec .bounded s = .next { s with block := { s.block with
      errcode := .ok, op := .bounded, phase := .busy,
      thresh := (-s.block.bound) % s.block.bound } }) ∧
  (∀ s : State, s.block.phase = .busy → s.block.op = .bounded →
    ∃ t, exec .bounded s = .next t ∧ t.block.thresh = s.block.thresh)

/-- 43_bounded.md R151, 60_exceptions.md R209: `BOUNDED` while `BOUND = 0` is a command error, and
nothing else happens. -/
def Obligations.BoundedWithZeroBoundIsRefused : Prop :=
  ∀ (s : State) (k : Nat) (rest : List HostOp), s.nextTurn = .host k → s.block.phase = .idle →
    (s.master k).pending = .write 0x00 32 0x00000003#32 :: rest → s.block.bound = 0#32 →
    ErrCode.boundZero.code = 2#4 ∧
    step s = .next { s.answered k rest .written with block := { s.block with errcode := .boundZero } }

/-! ## Engine transitions -/

/-- `SEED` in closed form, in one transition: with `inc = (initSeq << 1) | 1` the new state is
`ACC = (inc + initState) * MUL + inc`, `INC = inc` (41_seed_load.md: the spec marks the closed form of its
five steps as derived). -/
def Obligations.SeedTransitionHasItsClosedForm : Prop :=
  ∀ s : State, s.block.phase = .busy → s.block.op = .seed →
    ∃ t, exec .seed s = .next t ∧
      t = { s with block := { s.block with
        acc := 6364136223846793005#64 * (((s.block.arg1 <<< 1) ||| 1#64) + s.block.arg0) +
          ((s.block.arg1 <<< 1) ||| 1#64)
        incTop := s.block.arg1.setWidth 63
        phase := .idle } } ∧
      t.block.inc = (s.block.arg1 <<< 1) ||| 1#64

/-- The seeded state depends on the operands only, and not on the top bit of `initSeq` (41_seed_load.md,
corner cases 2 and 4, which the spec gives as consequences). -/
def Obligations.SeedDependsOnlyOnItsOperands : Prop :=
  ∀ s₁ s₂ : State, s₁.block.phase = .busy → s₁.block.op = .seed → s₂.block.phase = .busy →
    s₂.block.op = .seed → s₁.block.arg0 = s₂.block.arg0 →
    (s₁.block.arg1 = s₂.block.arg1 ∨ s₁.block.arg1 = s₂.block.arg1 ^^^ 0x8000000000000000#64) →
    ∃ t₁ t₂, exec .seed s₁ = .next t₁ ∧ exec .seed s₂ = .next t₂ ∧
      t₁.block.acc = t₂.block.acc ∧ t₁.block.inc = t₂.block.inc

/-- 41_seed_load.md R126: `LOADST` loads `ACC` and `INC[63:1]`, ignores `ARG1[0]`, applies no step and
writes nothing else. -/
def Obligations.LoadstInstallsTheGivenState : Prop :=
  ∀ s : State, s.block.phase = .busy → s.block.op = .loadst →
    ∃ t, exec .loadst s = .next t ∧
      t = { s with block := { s.block with
        acc := s.block.arg0, incTop := s.block.arg1.extractLsb' 1 63, phase := .idle } } ∧
      t.block.inc = s.block.arg1 ||| 1#64

/-- 42_step.md R141 over 40_datapath.md R100 to R104: one transition. `RESULT` is the old state's
xorshifted low word, rotated right by the old state's top five bits; `ACC` advances mod 2^64; nothing else
but `PHASE` is written. -/
def Obligations.StepReturnsXshRrOfTheOldState : Prop :=
  ∀ s : State, s.block.phase = .busy → s.block.op = .step →
    exec .step s = .next { s with block := { s.block with
      acc := 6364136223846793005#64 * s.block.acc + s.block.inc
      result := ((((s.block.acc >>> 18) ^^^ s.block.acc) >>> 27).setWidth 32).rotateRight
        (s.block.acc >>> 59).toNat
      phase := .idle } }

/-- Bit `i` of the xorshifted value, and the rotation amount as a number (40_datapath.md, XSH-RR: the spec
marks the bit form as derived). -/
def Obligations.XorshiftAndRotationBits : Prop :=
  ∀ old : DWord,
    (∀ i, i ≤ 18 → (xorshifted old).getLsbD i = (old.getLsbD (27 + i) ^^ old.getLsbD (45 + i))) ∧
    (∀ i, 19 ≤ i → i ≤ 31 → (xorshifted old).getLsbD i = old.getLsbD (27 + i)) ∧
    (rot old).toNat = old.toNat / 2 ^ 59 ∧ (rot old).toNat ≤ 31

/-- 40_datapath.md R102: for `n` in 0..31, bit `i` of the rotated value is bit `(i + n) mod 32`; `n = 0`
changes nothing, and otherwise the left shift amount is `32 - n`. -/
def Obligations.RotateRightMovesEveryBit : Prop :=
  ∀ (x n : Word), n.toNat ≤ 31 →
    (∀ i, i < 32 → (rotr32 x n).getLsbD i = x.getLsbD ((i + n.toNat) % 32)) ∧
    (n = 0#32 → rotr32 x n = x) ∧
    (1 ≤ n.toNat → rotr32 x n = (x >>> n.toNat) ||| (x <<< (32 - n.toNat)))

/-- 43_bounded.md R153: one draw. `r` is exactly what `STEP` would return; it is accepted when it is at
least `THRESH`, unsigned, and discarded otherwise. (A `BOUNDED` in progress has a nonzero bound: the
invariant.) -/
def Obligations.BoundedDrawAcceptsOrDiscards : Prop :=
  ∀ s : State, s.block.phase = .busy → s.block.op = .bounded → s.block.bound ≠ 0#32 →
    ∃ v, exec .step { s with block := { s.block with op := .step } } = .next v ∧
      v.block.acc = lcgNext s.block.acc s.block.inc ∧ v.block.result = output s.block.acc ∧
      (s.block.thresh.toNat ≤ v.block.result.toNat →
        exec .bounded s = .next { s with block := { s.block with
          acc := v.block.acc, result := v.block.result % s.block.bound, phase := .idle } }) ∧
      (v.block.result.toNat < s.block.thresh.toNat →
        exec .bounded s = .next { s with block := { s.block with acc := v.block.acc } })

/-- Bounded-range containment: a completed `BOUNDED` has written a value below its bound (43_bounded.md,
corner cases, which the spec marks as derived). -/
def Obligations.BoundedResultIsBelowItsBound : Prop :=
  ∀ s t : State, s.block.phase = .busy → s.block.op = .bounded → s.block.bound ≠ 0#32 →
    exec .bounded s = .next t → t.block.phase = .idle → t.block.result.toNat < t.block.bound.toNat

/-- A bound that is a power of two takes one draw, whose low bits are the result (43_bounded.md, corner
cases, which the spec marks as derived). -/
def Obligations.PowerOfTwoBoundTakesOneDraw : Prop :=
  ∀ (s : State) (k : Nat), k < 32 → s.block.phase = .busy → s.block.op = .bounded →
    s.block.bound = 1#32 <<< k → s.block.thresh = threshold s.block.bound →
    exec .bounded s = .next { s with block := { s.block with
      acc := lcgNext s.block.acc s.block.inc
      result := output s.block.acc &&& (s.block.bound - 1#32)
      phase := .idle } }

/-- A draw depends on the generator state and the operands of `BOUNDED` only (10_state.md R23). -/
def Obligations.DrawsDependOnlyOnGeneratorStateAndBound : Prop :=
  ∀ (i : Instr) (s₁ s₂ : State), i = .step ∨ i = .bounded →
    s₁.block.phase = .busy → s₁.block.op = i → s₂.block.phase = .busy → s₂.block.op = i →
    s₁.block.acc = s₂.block.acc → s₁.block.inc = s₂.block.inc →
    (i = .bounded → s₁.block.bound = s₂.block.bound ∧ s₁.block.thresh = s₂.block.thresh) →
    ∃ t₁ t₂, exec i s₁ = .next t₁ ∧ exec i s₂ = .next t₂ ∧
      t₁.block.acc = t₂.block.acc ∧ t₁.block.inc = t₂.block.inc ∧
      t₁.block.phase = t₂.block.phase ∧ (t₁.block.phase = .idle → t₁.block.result = t₂.block.result)

/-- `SEED`, `STEP` and `LOADST` take exactly one engine transition (70_reset_and_hazards.md R236). -/
def Obligations.OneTransitionCommandsCompleteAtOnce : Prop :=
  ∀ (i : Instr) (s : State), i = .seed ∨ i = .step ∨ i = .loadst → s.block.phase = .idle →
    ∃ u t, exec i s = .next u ∧ u.block.phase = .busy ∧ u.block.op = i ∧
      exec i u = .next t ∧ t.block.phase = .idle ∧ t.block.errcode = .ok

/-- While another command is in progress a command has no effect: the bus refuses its word
(60_exceptions.md R205). That `exec` answers the unchanged state there is the model's choice (log entry 8);
no step comes to it. -/
def Obligations.CommandHasNoEffectWhileAnotherRuns : Prop :=
  ∀ (i : Instr) (s : State), s.block.phase = .busy → s.block.op ≠ i → exec i s = .next s

/-- The frame of the commands: what each leaves unchanged when it gives a next state (30_encoding.md R81;
10_state.md R24, R28, R29, R31, R37). Memory is the register window: the bytes of `BOUND`, `ARG0` and
`ARG1` read as before. -/
def Obligations.CommandsLeaveEverythingElseUnchanged : Prop :=
  ∀ (i : Instr) (s t : State), exec i s = .next t →
    t.masters = s.masters ∧ t.turns = s.turns ∧ t.draws = s.draws ∧
    t.block.bound = s.block.bound ∧ t.block.arg0 = s.block.arg0 ∧ t.block.arg1 = s.block.arg1 ∧
    (i = .step ∨ i = .bounded → t.block.inc = s.block.inc) ∧
    (i = .seed ∨ i = .loadst → t.block.result = s.block.result) ∧
    (i ≠ .bounded → t.block.thresh = s.block.thresh) ∧
    (s.block.phase = .busy →
      t.block.errcode = s.block.errcode ∧ t.block.op = s.block.op ∧ t.block.thresh = s.block.thresh) ∧
    (s.block.phase = .idle →
      t.block.acc = s.block.acc ∧ t.block.inc = s.block.inc ∧ t.block.result = s.block.result) ∧
    (∀ off : Fin 64, 0x0C ≤ off.val → off.val < 0x20 → t.block.windowByte off = s.block.windowByte off)

/-! ## The datapath -/

/-- The threshold is `2^32 mod bound`, is below the bound, is 0 exactly for powers of two, and is at most
`2^31 - 1` (40_datapath.md, Rejection threshold, items 1 to 4, which the spec marks as derived). -/
def Obligations.ThresholdIsTwoToThe32ModBound : Prop :=
  ∀ bound : Word, bound ≠ 0#32 →
    (threshold bound).toNat = 2 ^ 32 % bound.toNat ∧
    (threshold bound).toNat < bound.toNat ∧
    (threshold bound = 0#32 ↔ ∃ k, k < 32 ∧ bound.toNat = 2 ^ k) ∧
    (threshold bound).toNat ≤ 2 ^ 31 - 1 ∧
    (threshold 0x80000001#32).toNat = 0x7FFFFFFF

/-- The accepted draws are unbiased: each value below the bound comes from equally many of them
(40_datapath.md, Rejection threshold, item 5, which the spec marks as derived). -/
def Obligations.AcceptedDrawsAreUnbiased : Prop :=
  ∀ (bound : Word) (c : Nat), bound ≠ 0#32 → c < bound.toNat →
    ((Finset.range (2 ^ 32)).filter (fun r =>
      accept (BitVec.ofNat 32 r) (threshold bound) = true ∧
        (reduce (BitVec.ofNat 32 r) bound).toNat = c)).card =
      (2 ^ 32 - (threshold bound).toNat) / bound.toNat

/-- The worked values of 40_datapath.md, which the spec computed from its rules (sanity). -/
def Obligations.DatapathWorkedValues : Prop :=
  ∀ row ∈ ([
    (0x0000000000000000#64, 0x00000000#32, 0#32, 0x00000000#32, 0x0000000000000001#64),
    (0x0000000000000001#64, 0x00000000#32, 0#32, 0x00000000#32, 0x5851F42D4C957F2E#64),
    (0xFFFFFFFFFFFFFFFF#64, 0xFFF80000#32, 31#32, 0xFFF00001#32, 0xA7AE0BD2B36A80D4#64),
    (0x07FFFFFFFFFFFFFF#64, 0xFFFFC000#32, 0#32, 0xFFFFC000#32, 0x0FAE0BD2B36A80D4#64),
    (0x0800000000000000#64, 0x00004000#32, 1#32, 0x00002000#32, 0x6800000000000001#64),
    (0x8000000000000000#64, 0x00040000#32, 16#32, 0x00000004#32, 0x8000000000000001#64),
    (0xF800000000000000#64, 0x0007C000#32, 31#32, 0x000F8000#32, 0x9800000000000001#64),
    (0x853C49E6748FEA9B#64, 0xA78D152C#32, 16#32, 0x152CA78D#32, 0xEDF1DBFE72E62240#64),
    (0x185706B82C2E03F8#64, 0x0AE015BD#32, 3#32, 0xA15C02B7#32, 0x2B47FED88766BA99#64),
    (0x123456789ABCDEF0#64, 0x468A5EB1#32, 2#32, 0x51A297AC#32, 0x8DDB1A43E77C4031#64)] :
      List (DWord × Word × Word × Word × DWord)),
    xorshifted row.1 = row.2.1 ∧ rot row.1 = row.2.2.1 ∧ output row.1 = row.2.2.2.1 ∧
      lcgNext row.1 1#64 = row.2.2.2.2

/-- The worked examples of `SEED`, `STEP` and `BOUNDED` (41_seed_load.md, 42_step.md, 43_bounded.md: the
examples, which the spec computed from its rules). -/
def Obligations.WorkedCommandExamples : Prop :=
  (∀ s : State, s.block.phase = .busy → s.block.op = .seed → s.block.arg0 = 42#64 →
    s.block.arg1 = 54#64 → ∃ t, exec .seed s = .next t ∧
      t.block.acc = 0x185706B82C2E03F8#64 ∧ t.block.inc = 0x6D#64) ∧
  (∀ s : State, s.block.phase = .busy → s.block.op = .step → s.block.acc = 0x185706B82C2E03F8#64 →
    s.block.inc = 0x6D#64 → ∃ t, exec .step s = .next t ∧
      t.block.result = 0xA15C02B7#32 ∧ t.block.acc = 0x2B47FED88766BB05#64) ∧
  boundedDraw 1#64 0xFFFFFFFF#32 3 0#64 = some (0xC0B18CCF4E252D17#64, 0xE4C14788#32) ∧
  boundedDraw 1#64 0xFFFFFFFF#32 2 0#64 = none

/-! ## The rejection loop as a whole -/

/-- `BOUNDED` is the source's `boundedDraw` (43_bounded.md R152, R153; the spec marks the summary as
derived): where the function ends, the command ends after `k` transitions, having advanced `ACC` exactly
`k` times, rejected the first `k - 1` draws and written `RESULT` once. No turn is prescribed, so that the
engine moves while `BUSY`: the default order of log entry 2. -/
def Obligations.BoundedIsTheSourcesRejectionLoop : Prop :=
  ∀ (s : State) (fuel : Nat) (a : DWord) (r : Word),
    s.turns = [] → s.block.phase = .busy → s.block.op = .bounded → s.block.bound ≠ 0#32 →
    s.block.thresh = threshold s.block.bound →
    boundedDraw s.block.inc s.block.bound fuel s.block.acc = some (a, r) →
    ∃ k, 1 ≤ k ∧ k ≤ fuel ∧
      a = (fun x => lcgNext x s.block.inc)^[k] s.block.acc ∧
      (∀ j, j + 1 < k → (output ((fun x => lcgNext x s.block.inc)^[j] s.block.acc)).toNat <
        (threshold s.block.bound).toNat) ∧
      (threshold s.block.bound).toNat ≤
        (output ((fun x => lcgNext x s.block.inc)^[k - 1] s.block.acc)).toNat ∧
      r = output ((fun x => lcgNext x s.block.inc)^[k - 1] s.block.acc) % s.block.bound ∧
      Host.Core.run Sys2Proof.core k s =
        .next { s with block := { s.block with acc := a, result := r, phase := .idle } }

/-- Every `BOUNDED` command with a nonzero bound completes after at most 2^64 draw transitions
(43_bounded.md, Termination, which the spec marks as derived, with a premise from general knowledge). No
turn is prescribed, so that the engine moves while `BUSY`: the default order of log entry 2. -/
def Obligations.EveryBoundedCommandCompletes : Prop :=
  ∀ s : State, s.turns = [] → s.block.phase = .busy → s.block.op = .bounded →
    s.block.bound ≠ 0#32 → s.block.thresh = threshold s.block.bound →
    ∃ k t, 1 ≤ k ∧ k ≤ 2 ^ 64 ∧ Host.Core.run Sys2Proof.core k s = .next t ∧
      t.block.phase = .idle ∧ t.block.result.toNat < s.block.bound.toNat

/-- Every `POLL` of every host ends, whatever the turns of the environment are and whatever the other hosts do
between its reads, and ends reading `BUSY = 0` (44_host_api.md R170, R178; 70_reset_and_hazards.md R236,
fairness: log entry 2). -/
def Obligations.EveryPollEnds : Prop :=
  ∀ (s : State) (k : Nat) (rest : List HostOp), s.block.Inv → (s.master k).pending = .poll :: rest →
    ∃ n t v, Host.Core.run Sys2Proof.core n s = .next t ∧ (t.master k).pending = rest ∧
      (t.master k).answers.head? = some (.data v) ∧ v.getLsbD 0 = false ∧ t.block.phase = .idle

/-- Host accesses do not disturb the command in progress (20_memory.md R62; 60_exceptions.md R205;
70_reset_and_hazards.md R236): after any number of them, by any hosts, the engine's transition does to the
block what it would have done at once. -/
def Obligations.HostAccessesDoNotDisturbTheCommand : Prop :=
  ∀ (ks : List Nat) (s : State) (ts : List Turn), s.block.phase = .busy →
    s.turns = ks.map .host ++ .engine :: ts →
    ∃ t u, Host.Core.run Sys2Proof.core (ks.length + 1) s = .next t ∧ exec s.block.op s = .next u ∧
      t.block = u.block ∧ t.turns = ts

/-! ## Invariants and whole-machine rules -/

/-- The reset state meets the invariant. -/
def Obligations.ResetStateMeetsTheInvariant : Prop :=
  State.reset.block.Inv

/-- Every step keeps the invariant (10_state.md R31, R35; 20_memory.md R62; 60_exceptions.md R205): while a
command is in progress `ERRCODE` is `OK`, and `THRESH` is the threshold of a nonzero `BOUND` if it is
`BOUNDED`. -/
def Obligations.EveryStepKeepsTheInvariant : Prop :=
  ∀ s t : State, s.block.Inv → step s = .next t → t.block.Inv

/-- No step stops the machine: a bus error refuses one access only (60_exceptions.md R206), a command error
is no bus error (R210), and an engine transition raises none (R211). That a step which raises a bus error
answers a next state, where 93 U7 and U12 give the word fault, is the model's reading (log entry 3). -/
def Obligations.EveryStepAnswersANextState : Prop :=
  ∀ s : State, ∃ t, step s = .next t

/-- Which events write each register, reset apart (10_state.md R24, R28, R29, R31, R34, R35, R37;
60_exceptions.md R204). -/
def Obligations.OnlyTheNamedEventsWriteEachRegister : Prop :=
  ∀ s t : State, step s = .next t → s.nextTurn ≠ .reset →
    (t.block.acc ≠ s.block.acc → s.nextTurn = .engine ∧ s.block.phase = .busy) ∧
    (t.block.inc ≠ s.block.inc → s.nextTurn = .engine ∧ s.block.phase = .busy ∧
      (s.block.op = .seed ∨ s.block.op = .loadst)) ∧
    (t.block.result ≠ s.block.result → s.nextTurn = .engine ∧ s.block.phase = .busy ∧
      (s.block.op = .step ∨ s.block.op = .bounded) ∧ t.block.phase = .idle) ∧
    (t.block.errcode ≠ s.block.errcode ∨ t.block.op ≠ s.block.op ∨ t.block.thresh ≠ s.block.thresh →
      s.block.phase = .idle ∧ ∃ k v rest, s.nextTurn = .host k ∧
        (s.master k).pending = .write 0x00 32 v :: rest) ∧
    (t.block.bound ≠ s.block.bound → s.block.phase = .idle ∧ ∃ k rest, s.nextTurn = .host k ∧
      (s.master k).pending = .write 0x0C 32 t.block.bound :: rest) ∧
    (t.block.arg0 ≠ s.block.arg0 → s.block.phase = .idle ∧ ∃ k v rest, s.nextTurn = .host k ∧
      ((s.master k).pending = .write 0x10 32 v :: rest ∨ (s.master k).pending = .write 0x14 32 v :: rest)) ∧
    (t.block.arg1 ≠ s.block.arg1 → s.block.phase = .idle ∧ ∃ k v rest, s.nextTurn = .host k ∧
      ((s.master k).pending = .write 0x18 32 v :: rest ∨ (s.master k).pending = .write 0x1C 32 v :: rest))

/-- 10_state.md R33: `STATUS.BUSY` is 1 exactly when `PHASE = BUSY`; `PHASE` becomes `BUSY` when a
command starts and only then, and `IDLE` only at the engine transition that completes it, or by reset. -/
def Obligations.PhaseChangesOnlyAtStartCompletionAndReset : Prop :=
  (∀ b : Block, b.status.getLsbD 0 = true ↔ b.phase = .busy) ∧
  (∀ (i : Instr) (s : State), s.block.phase = .idle → (i = .bounded → s.block.bound ≠ 0#32) →
    ∃ t, exec i s = .next t ∧ t.block.phase = .busy ∧ t.block.op = i) ∧
  (∀ s t : State, step s = .next t → s.block.phase = .idle → t.block.phase = .busy →
    ∃ k w rest i, s.nextTurn = .host k ∧ (s.master k).pending = .write 0x00 32 w :: rest ∧ decodeWord w = .ok i ∧
      t.block.op = i ∧ t.block.errcode = .ok ∧ (i = .bounded → s.block.bound ≠ 0#32)) ∧
  (∀ s t : State, step s = .next t → s.block.phase = .busy → t.block.phase = .idle →
    s.nextTurn = .reset ∨ s.nextTurn = .engine) ∧
  (∀ s t : State, step s = .next t → s.nextTurn = .reset → t.block.phase = .idle)

/-- Reads change nothing in the block, in either phase (20_memory.md R61), and no host access of any kind
changes it while a command is in progress (60_exceptions.md R205). -/
def Obligations.ReadsAndBusyAccessesLeaveTheBlock : Prop :=
  ∀ (s t : State) (k : Nat), s.nextTurn = .host k → step s = .next t →
    (s.block.phase = .busy ∨ (∀ off n v rest, (s.master k).pending ≠ .write off n v :: rest)) →
    t.block = s.block

/-- 10_state.md R31: an accepted command write sets `ERRCODE` to exactly one of 0, 1 and 2, by the word and
`BOUND`; nothing else but reset, which writes 0, changes it. -/
def Obligations.ErrcodeIsTheOutcomeOfTheLastCommandWrite : Prop :=
  (∀ (s t : State) (k : Nat) (w : Word) (rest : List HostOp), s.nextTurn = .host k →
    s.block.phase = .idle → (s.master k).pending = .write 0x00 32 w :: rest → step s = .next t →
    t.block.errcode.code =
      if w ≠ 1#32 ∧ w ≠ 2#32 ∧ w ≠ 3#32 ∧ w ≠ 4#32 then 1#4
      else if w = 3#32 ∧ s.block.bound = 0#32 then 2#4 else 0#4) ∧
  (∀ s t : State, step s = .next t → s.nextTurn ≠ .reset →
    (¬ ∃ k w rest, s.nextTurn = .host k ∧ s.block.phase = .idle ∧
      (s.master k).pending = .write 0x00 32 w :: rest) →
    t.block.errcode = s.block.errcode) ∧
  (∀ s t : State, step s = .next t → s.nextTurn = .reset → t.block.errcode.code = 0#4)

/-- With no access to perform, an idle block keeps all its state (60_exceptions.md R223); an idle engine has no
transition to take (log entry 9). -/
def Obligations.IdleBlockKeepsAllItsState : Prop :=
  ∀ s : State, s.block.phase = .idle →
    (s.nextTurn = .engine ∨ ∃ k, s.nextTurn = .host k ∧ (s.master k).pending = []) →
    step s = .next { s with turns := s.turns.tail }

/-! ## The register window -/

/-- 60_exceptions.md R201 to R204, R207: the bus error of an access is the first that applies, in the fixed
order, and it does nothing but answer the access; an access that none applies to is accepted. -/
def Obligations.BusErrorIsTheFirstThatApplies : Prop :=
  ∀ (s : State) (k : Nat) (a : HostOp) (rest : List HostOp) (off : Fin 64) (n : Nat),
    s.nextTurn = .host k → (s.master k).pending = a :: rest → (a = .read off n ∨ ∃ v, a = .write off n v) →
    (off.val % 4 ≠ 0 → step s = .next (s.answered k rest (.busError .misaligned))) ∧
    (off.val % 4 = 0 → n ≠ 32 → step s = .next (s.answered k rest (.busError .badWidth))) ∧
    (off.val % 4 = 0 → n = 32 → 0x30 ≤ off.val →
      step s = .next (s.answered k rest (.busError .unmapped))) ∧
    (n = 32 → (∃ v, a = .write off n v) →
      off ∈ ([0x04, 0x08, 0x20, 0x24, 0x28, 0x2C] : List (Fin 64)) →
      step s = .next (s.answered k rest (.busError .readOnly))) ∧
    (n = 32 → (∃ v, a = .write off n v) →
      off ∈ ([0x00, 0x0C, 0x10, 0x14, 0x18, 0x1C] : List (Fin 64)) → s.block.phase = .busy →
      step s = .next (s.answered k rest (.busError .busy))) ∧
    (∀ v, n = 32 → a = .write off n v → off = 0x00 → s.block.phase = .idle →
      step s = issueWord v (s.answered k rest .written)) ∧
    (n = 32 → (∃ v, a = .write off n v) →
      off ∈ ([0x0C, 0x10, 0x14, 0x18, 0x1C] : List (Fin 64)) → s.block.phase = .idle →
      ∃ b, step s = .next { s.answered k rest .written with block := b }) ∧
    (off.val % 4 = 0 → n = 32 → off.val < 0x30 → a = .read off n →
      ∃ v d, step s = .next { s.answered k rest (.data v) with draws := d })

/-- The numbers of the causes (60_exceptions.md R201 to R205). -/
def Obligations.BusErrorCausesAreNumbered : Prop :=
  Fault.misaligned.number = 1 ∧ Fault.badWidth.number = 2 ∧ Fault.unmapped.number = 3 ∧
    Fault.readOnly.number = 4 ∧ Fault.busy.number = 5

/-- 20_memory.md R63: what an accepted read delivers. While `BUSY`, `ACC_*` and `INC_*` deliver some word,
with bit 0 = 1 for `INC_LO` (a free value: log entry 4). -/
def Obligations.AcceptedReadsDeliverTheirRegister : Prop :=
  ∀ (s : State) (k : Nat) (off : Fin 64) (rest : List HostOp),
    s.nextTurn = .host k → (s.master k).pending = .read off 32 :: rest →
    (off = 0x00 → step s = .next (s.answered k rest (.data 0#32))) ∧
    (off = 0x04 → ∃ v, step s = .next (s.answered k rest (.data v)) ∧
      v.toNat = 16 * s.block.errcode.code.toNat + if s.block.phase = .busy then 1 else 0) ∧
    (off = 0x08 → step s = .next (s.answered k rest (.data s.block.result))) ∧
    (off = 0x0C → step s = .next (s.answered k rest (.data s.block.bound))) ∧
    (off = 0x10 → step s = .next (s.answered k rest (.data (s.block.arg0.extractLsb' 0 32)))) ∧
    (off = 0x14 → step s = .next (s.answered k rest (.data (s.block.arg0.extractLsb' 32 32)))) ∧
    (off = 0x18 → step s = .next (s.answered k rest (.data (s.block.arg1.extractLsb' 0 32)))) ∧
    (off = 0x1C → step s = .next (s.answered k rest (.data (s.block.arg1.extractLsb' 32 32)))) ∧
    (s.block.phase = .idle →
      (off = 0x20 → step s = .next (s.answered k rest (.data (s.block.acc.extractLsb' 0 32)))) ∧
      (off = 0x24 → step s = .next (s.answered k rest (.data (s.block.acc.extractLsb' 32 32)))) ∧
      (off = 0x28 → step s = .next (s.answered k rest (.data (s.block.inc.extractLsb' 0 32)))) ∧
      (off = 0x2C → step s = .next (s.answered k rest (.data (s.block.inc.extractLsb' 32 32))))) ∧
    (s.block.phase = .busy → off = 0x20 ∨ off = 0x24 ∨ off = 0x28 ∨ off = 0x2C →
      ∃ v, step s = .next { s.answered k rest (.data v) with draws := s.draws + 1 } ∧
        (off = 0x28 → v.getLsbD 0 = true))

/-- 20_memory.md R64: what an accepted write does. -/
def Obligations.AcceptedWritesSetTheirRegister : Prop :=
  ∀ (s : State) (k : Nat) (off : Fin 64) (v : Word) (rest : List HostOp),
    s.nextTurn = .host k → s.block.phase = .idle → (s.master k).pending = .write off 32 v :: rest →
    (off = 0x00 → step s = issueWord v (s.answered k rest .written)) ∧
    (off = 0x0C → step s =
      .next { s.answered k rest .written with block := { s.block with bound := v } }) ∧
    (off = 0x10 → step s = .next { s.answered k rest .written with
      block := { s.block with arg0 := s.block.arg0.extractLsb' 32 32 ++ v } }) ∧
    (off = 0x14 → step s = .next { s.answered k rest .written with
      block := { s.block with arg0 := v ++ s.block.arg0.extractLsb' 0 32 } }) ∧
    (off = 0x18 → step s = .next { s.answered k rest .written with
      block := { s.block with arg1 := s.block.arg1.extractLsb' 32 32 ++ v } }) ∧
    (off = 0x1C → step s = .next { s.answered k rest .written with
      block := { s.block with arg1 := v ++ s.block.arg1.extractLsb' 0 32 } })

/-- The fields of `STATUS` (10_state.md R30, R40). -/
def Obligations.StatusWordFields : Prop :=
  ∀ b : Block,
    b.status.extractLsb' 0 1 = (if b.phase = .busy then 1#1 else 0#1) ∧
    b.status.extractLsb' 1 3 = 0#3 ∧ b.status.extractLsb' 4 4 = b.errcode.code ∧
    b.status.extractLsb' 8 24 = 0#24

/-- 10_state.md R22: `INC[0]` reads 1 at all times, and every write of `INC` leaves it 1. -/
def Obligations.IncrementBitZeroIsHardwired : Prop :=
  (∀ b : Block, b.inc.getLsbD 0 = true) ∧
  (∀ (b : Block) (v : DWord), (b.setInc v).inc = v ||| 1#64)

/-- 20_memory.md R57 and R58: byte `k` of the eight at a 64-bit register's lower offset is its bits
`[8k+7:8k]`; so offsets 0x20 to 0x2F hold `ACC` and then `INC` in little-endian order. -/
def Obligations.WindowShowsSixtyFourBitRegistersLittleEndian : Prop :=
  ∀ (b : Block) (off : Fin 64) (k : Nat), k < 8 →
    (off.val = 0x10 + k → b.windowByte off = some (b.arg0.extractLsb' (8 * k) 8)) ∧
    (off.val = 0x18 + k → b.windowByte off = some (b.arg1.extractLsb' (8 * k) 8)) ∧
    (b.phase = .idle → off.val = 0x20 + k → b.windowByte off = some (b.acc.extractLsb' (8 * k) 8)) ∧
    (b.phase = .idle → off.val = 0x28 + k → b.windowByte off = some (b.inc.extractLsb' (8 * k) 8))

/-- 20_memory.md R51: the base is a multiple of 64, and the block sees the offset of an address from it. -/
def Obligations.WindowBaseAndOffsets : Prop :=
  Config.pcgBase % 64 = 0 ∧
  ∀ (base addr : Nat) (off : Fin 64), windowOffset base addr = some off ↔ addr = base + off.val

/-! ## Reset -/

/-- 70_reset_and_hazards.md R230: every register after reset. Nothing is said of `OP` and `THRESH`, which
the spec leaves unspecified (log entries 5 and 6). -/
def Obligations.ResetLeavesTheSpecifiedValues : Prop :=
  State.reset.block.acc = 0x853C49E6748FEA9B#64 ∧ State.reset.block.inc = 0xDA3E39CB94B95BDB#64 ∧
  State.reset.block.result = 0x00000000#32 ∧ State.reset.block.bound = 0x00000000#32 ∧
  State.reset.block.arg0 = 0x0000000000000000#64 ∧ State.reset.block.arg1 = 0x0000000000000000#64 ∧
  State.reset.block.errcode.code = 0#4 ∧ State.reset.block.phase = .idle ∧
  State.reset.block.status = 0x00000000#32

/-- 70_reset_and_hazards.md R231: reset, asserted in either phase, abandons the command in progress without
a further transition and sets the state of R230. -/
def Obligations.ResetAbandonsTheCommandInProgress : Prop :=
  ∀ s : State, s.nextTurn = .reset →
    ∃ t, step s = .next t ∧
      t.block.acc = 0x853C49E6748FEA9B#64 ∧ t.block.inc = 0xDA3E39CB94B95BDB#64 ∧
      t.block.result = 0#32 ∧ t.block.bound = 0#32 ∧ t.block.arg0 = 0#64 ∧ t.block.arg1 = 0#64 ∧
      t.block.errcode = .ok ∧ t.block.phase = .idle

/-- What the hosts have pending, what they were answered and the turns after it stay through a reset. R231 says
nothing of it: the model's choice (log entry 16). -/
def Obligations.ResetLeavesTheHostsSide : Prop :=
  ∀ s : State, s.nextTurn = .reset →
    ∃ t, step s = .next t ∧ (∀ k, t.master k = s.master k) ∧ t.turns = s.turns.tail ∧ t.draws = s.draws

/-! ## Several hosts on one block (20_memory.md R68, 44_host_api.md R178; log entry 18) -/

/-- A turn of one host is seen by the others through the block only: what every other host has pending and was
answered stays, and what the host itself has pending only gets shorter, or stays where its `POLL` goes on
(20_memory.md R65, R68; 44_host_api.md R170, R173, R178). A turn of the engine leaves every host. That a reset
leaves every host too is the model's choice, of which the rules say nothing (log entry 16); the hosts as lists
are the model's form (log entry 18). -/
def Obligations.EachHostKeepsItsOwnStream : Prop :=
  (∀ (s t : State) (k : Nat), s.nextTurn = .host k → step s = .next t →
    (∀ j, j ≠ k → t.master j = s.master j) ∧
    (t.master k).pending <:+ (s.master k).pending ∧
    (s.master k).answers <:+ (t.master k).answers ∧
    ((t.master k).pending = (s.master k).pending → (s.master k).pending = [] ∨
      s.block.phase = .busy ∧ (s.master k).pending.head? = some .poll)) ∧
  (∀ s t : State, s.nextTurn = .engine ∨ s.nextTurn = .reset → step s = .next t →
    ∀ k, t.master k = s.master k)

/-- The block does not tell the hosts apart (20_memory.md R68): the same access by one host or by another does
the same to the block and is answered the same. -/
def Obligations.BlockDoesNotTellHostsApart : Prop :=
  ∀ (s : State) (j k : Nat) (a : HostOp) (rj rk : List HostOp),
    (s.master j).pending = a :: rj → (s.master k).pending = a :: rk →
    ∃ t u, step { s with turns := .host j :: s.turns } = .next t ∧
      step { s with turns := .host k :: s.turns } = .next u ∧ t.block = u.block ∧ t.draws = u.draws ∧
      (t.master j).answers.head? = (u.master k).answers.head?

/-- The pseudo-instructions are not atomic (44_host_api.md R178, 20_memory.md R68): of any two hosts, when `k`
writes its operands after `j` wrote its own, `j`'s `pcg.srandom A, B` ends without an error and has seeded the
block with `k`'s operands. With `j` and `k` exchanged it says the same of `k`'s call: each can corrupt the
other's. -/
def Obligations.InterleavedHostsCorruptEachOther : Prop :=
  ∀ (s : State) (j k : Nat) (a b a' b' : DWord) (rest rest' : List HostOp) (ts : List Turn), j ≠ k →
    s.block.phase = .idle →
    (s.master j).pending = pcgSrandom a b ++ rest → (s.master k).pending = pcgSrandom a' b' ++ rest' →
    s.turns = List.replicate 4 (.host j) ++ List.replicate 4 (.host k) ++ [.host j, .engine, .host j] ++ ts →
    ∃ t, Host.Core.run Sys2Proof.core 11 s = .next t ∧ t.block.phase = .idle ∧ t.block.errcode = .ok ∧
      (t.master j).pending = rest ∧ (t.master j).answers.head? = some (.data 0#32) ∧
      t.block.inc = (b' <<< 1) ||| 1#64 ∧
      t.block.acc = lcgNext (((b' <<< 1) ||| 1#64) + a') ((b' <<< 1) ||| 1#64)

/-! ## The hosts' pseudo-instructions (44_host_api.md)

Host `k` performs one with no turn prescribed, in the default order of log entry 2: the engine moves while
`BUSY`, and the first host with an access pending otherwise, so that no host comes between two of its accesses.
Host `k` is any host, the hosts before it having nothing pending; those after it may. -/

/-- `pcg.save` reads the whole state and leaves the block (44_host_api.md R175; default order: log entry 2). -/
def Obligations.PcgSaveReadsTheWholeState : Prop :=
  ∀ (s : State) (k : Nat) (rest : List HostOp), s.turns = [] → s.block.phase = .idle →
    (∀ j, j < k → (s.master j).pending = []) → (s.master k).pending = pcgSave ++ rest →
    ∃ t, Host.Core.run Sys2Proof.core 4 s = .next t ∧ (t.master k).pending = rest ∧ t.block = s.block ∧
      savedState (t.master k).answers = some { acc := s.block.acc, inc := s.block.inc }

/-- `pcg.restore X, Y` loads the serialized state, with bit 0 of `Y` forced (44_host_api.md R174); so a state
read by `pcg.save` is restored exactly. Default order: log entry 2. -/
def Obligations.PcgRestoreLoadsTheState : Prop :=
  ∀ (s : State) (k : Nat) (x y : DWord) (rest : List HostOp), s.turns = [] → s.block.phase = .idle →
    (∀ j, j < k → (s.master j).pending = []) → (s.master k).pending = pcgRestore x y ++ rest →
    ∃ t, Host.Core.run Sys2Proof.core 7 s = .next t ∧ (t.master k).pending = rest ∧
      t.block.phase = .idle ∧ t.block.acc = x ∧ t.block.inc = y ||| 1#64 ∧
      (y.getLsbD 0 = true → t.block.inc = y) ∧ t.block.result = s.block.result

/-- `pcg.srandom A, B` seeds the block (44_host_api.md R171; default order: log entry 2). -/
def Obligations.PcgSrandomSeedsTheBlock : Prop :=
  ∀ (s : State) (k : Nat) (a b : DWord) (rest : List HostOp), s.turns = [] → s.block.phase = .idle →
    (∀ j, j < k → (s.master j).pending = []) → (s.master k).pending = pcgSrandom a b ++ rest →
    ∃ t, Host.Core.run Sys2Proof.core 7 s = .next t ∧ (t.master k).pending = rest ∧
      t.block.phase = .idle ∧ t.block.inc = (b <<< 1) ||| 1#64 ∧
      t.block.acc = lcgNext (((b <<< 1) ||| 1#64) + a) ((b <<< 1) ||| 1#64)

/-- `pcg.random` returns the output of the state and advances it (44_host_api.md R172; default order: log
entry 2). -/
def Obligations.PcgRandomReturnsTheNextOutput : Prop :=
  ∀ (s : State) (k : Nat) (rest : List HostOp), s.turns = [] → s.block.phase = .idle →
    (∀ j, j < k → (s.master j).pending = []) → (s.master k).pending = pcgRandom ++ rest →
    ∃ t, Host.Core.run Sys2Proof.core 4 s = .next t ∧ (t.master k).pending = rest ∧
      t.block.phase = .idle ∧ (t.master k).answers.head? = some (.data (output s.block.acc)) ∧
      t.block.acc = lcgNext s.block.acc s.block.inc ∧ t.block.inc = s.block.inc

/-- `pcg.boundedrand b` (44_host_api.md R173): with `b = 0` the call fails with `BOUND_ZERO`, delivers no
value and draws nothing; otherwise it ends and returns a value below `b`. Default order: log entry 2. -/
def Obligations.PcgBoundedrandFailsOnZeroAndElseReturns : Prop :=
  ∀ (s : State) (k : Nat) (b : Word) (rest : List HostOp), s.turns = [] → s.block.phase = .idle →
    (∀ j, j < k → (s.master j).pending = []) → (s.master k).pending = pcgBoundedrand b ++ rest →
    (b = 0#32 → ∃ t, Host.Core.run Sys2Proof.core 3 s = .next t ∧ (t.master k).pending = rest ∧
      (t.master k).answers.head? = some (.callFailed .boundZero) ∧
      t.block = { s.block with bound := 0#32, errcode := .boundZero }) ∧
    (b ≠ 0#32 → ∃ n t v, Host.Core.run Sys2Proof.core n s = .next t ∧ (t.master k).pending = rest ∧
      t.block.phase = .idle ∧ (t.master k).answers.head? = some (.data v) ∧ v.toNat < b.toNat ∧
      t.block.inc = s.block.inc)

/-- 30_encoding.md R89: the listing triple of a host line is its access, for example of `CMD SEED` and of
`RD RESULT`. -/
def Obligations.ListingTriplesAreTheAccesses : Prop :=
  (AsmLine.cmd .seed).listing = { write := true, off := 0x00, data := some 0x00000001#32 } ∧
  (AsmLine.rd .result).listing = { write := false, off := 0x08, data := none } ∧
  ∀ l : AsmLine,
    (l.listing.data = none → l.listing.write = false ∧ l.access = .read l.listing.off 32) ∧
    (∀ d, l.listing.data = some d → l.listing.write = true ∧ l.access = .write l.listing.off 32 d)
end

