-- ==== Sys2Proof/Laws/Datapath.lean ====
section
/-! SUPPORT. The arithmetic of 40_datapath.md in terms of natural numbers and bits. -/

namespace Sys2Proof.Machine

/-- The advance as R100 writes it. -/
theorem lcgNext_eq (old inc : DWord) : lcgNext old inc = old * mul64 + inc := by
  rw [lcgNext, BitVec.mul_comm]

/-- The advance, as arithmetic mod 2^64 (R100). -/
theorem lcgNext_toNat (old inc : DWord) :
    (lcgNext old inc).toNat = (6364136223846793005 * old.toNat + inc.toNat) % 2 ^ 64 := by
  rw [lcgNext, BitVec.toNat_add, BitVec.toNat_mul, Nat.mod_add_mod]
  rfl

/-- The advance of 0 is the increment (R123 item 1, R143 item 3). -/
@[simp] theorem lcgNext_zero (inc : DWord) : lcgNext 0#64 inc = inc := by
  simp [lcgNext]

/-- The rotation amount is the top five bits (R103). -/
theorem rot_toNat (old : DWord) : (rot old).toNat = old.toNat / 2 ^ 59 := by
  have := old.isLt
  simp [rot, trunc32, Nat.shiftRight_eq_div_pow]
  omega

/-- The rotation amount is legal (R103). -/
theorem rot_le (old : DWord) : (rot old).toNat ≤ 31 := by
  have := old.isLt
  rw [rot_toNat]
  omega

/-- Acceptance compares unsigned (R108). -/
@[simp] theorem accept_iff (r t : Word) : accept r t = true ↔ t.toNat ≤ r.toNat := by
  simp [accept, BitVec.le_def]

/-- A nonzero word is a positive number. -/
theorem toNat_pos_of_ne_zero {v : Word} (h : v ≠ 0#32) : 0 < v.toNat := by
  rcases Nat.eq_zero_or_pos v.toNat with e | e
  · exact absurd (BitVec.eq_of_toNat_eq (by simpa using e)) h
  · exact e

/-- The threshold is `2^32 mod bound`, with `2^32` the exact integer (R107 item 1). -/
theorem threshold_toNat (bound : Word) (h : bound ≠ 0#32) :
    (threshold bound).toNat = 2 ^ 32 % bound.toNat := by
  have hb := bound.isLt
  have h0 := toNat_pos_of_ne_zero h
  have e : 2 ^ 32 = (2 ^ 32 - bound.toNat) + bound.toNat := by omega
  rw [threshold, BitVec.toNat_umod, BitVec.toNat_neg]
  rw [Nat.mod_eq_of_lt (show 2 ^ 32 - bound.toNat < 2 ^ 32 by omega)]
  conv_rhs => rw [e]
  rw [Nat.add_mod_right]

/-- A reduced draw is below its bound (R158). -/
theorem reduce_lt (r bound : Word) (h : bound ≠ 0#32) : (reduce r bound).toNat < bound.toNat := by
  simpa [reduce] using Nat.mod_lt _ (toNat_pos_of_ne_zero h)

end Sys2Proof.Machine
end

