-- ==== Sys2Proof/Laws/State.lean ====
section
/-! SUPPORT. One lemma per field and update of the state, all true by rfl, so that no later proof unfolds
a record update. -/

namespace Sys2Proof.Machine

/-! The bus masters: a read after a write of the same one gives what was written, and a write leaves every
other one alone. -/

@[simp] theorem State.master_eq (s : State) (k : Nat) : s.master k = masterAt s.masters k := rfl

@[simp] theorem masterAt_nil (k : Nat) : masterAt [] k = Master.silent := by cases k <;> rfl

@[simp] theorem masterAt_setMasterAt_same (ms : List Master) (k : Nat) (m : Master) :
    masterAt (setMasterAt ms k m) k = m := by
  induction k generalizing ms with
  | zero => cases ms <;> rfl
  | succ k ih => cases ms <;> exact ih _

theorem masterAt_setMasterAt_other (ms : List Master) {j k : Nat} (m : Master) (h : j ≠ k) :
    masterAt (setMasterAt ms k m) j = masterAt ms j := by
  induction k generalizing ms j with
  | zero => cases j with
    | zero => exact absurd rfl h
    | succ j => cases ms <;> simp [setMasterAt, masterAt]
  | succ k ih =>
    have h' : ∀ i, j = i + 1 → i ≠ k := by omega
    cases ms <;> cases j <;> simp [setMasterAt, masterAt]
    · rw [ih _ (h' _ rfl), masterAt_nil]
    · rw [ih _ (h' _ rfl)]

@[simp] theorem setMasterAt_setMasterAt (ms : List Master) (k : Nat) (m m' : Master) :
    setMasterAt (setMasterAt ms k m) k m' = setMasterAt ms k m' := by
  induction k generalizing ms with
  | zero => cases ms <;> rfl
  | succ k ih => cases ms <;> simp [setMasterAt, ih]

/-! `State.setMaster`, `State.setPending` and `State.respond` touch one master only. -/

@[simp] theorem State.setMaster_block (s : State) (k : Nat) (m : Master) : (s.setMaster k m).block = s.block := rfl
@[simp] theorem State.setMaster_turns (s : State) (k : Nat) (m : Master) : (s.setMaster k m).turns = s.turns := rfl
@[simp] theorem State.setMaster_draws (s : State) (k : Nat) (m : Master) : (s.setMaster k m).draws = s.draws := rfl
@[simp] theorem State.setMaster_masters (s : State) (k : Nat) (m : Master) :
    (s.setMaster k m).masters = setMasterAt s.masters k m := rfl

@[simp] theorem State.setPending_block (s : State) (k : Nat) (l : List HostOp) :
    (s.setPending k l).block = s.block := rfl
@[simp] theorem State.setPending_turns (s : State) (k : Nat) (l : List HostOp) :
    (s.setPending k l).turns = s.turns := rfl
@[simp] theorem State.setPending_draws (s : State) (k : Nat) (l : List HostOp) :
    (s.setPending k l).draws = s.draws := rfl
@[simp] theorem State.setPending_masters (s : State) (k : Nat) (l : List HostOp) :
    (s.setPending k l).masters =
      setMasterAt s.masters k { pending := l, answers := (masterAt s.masters k).answers } := rfl

@[simp] theorem State.respond_block (s : State) (k : Nat) (r : Response) : (s.respond k r).block = s.block := rfl
@[simp] theorem State.respond_turns (s : State) (k : Nat) (r : Response) : (s.respond k r).turns = s.turns := rfl
@[simp] theorem State.respond_draws (s : State) (k : Nat) (r : Response) : (s.respond k r).draws = s.draws := rfl
@[simp] theorem State.respond_masters (s : State) (k : Nat) (r : Response) :
    (s.respond k r).masters = setMasterAt s.masters k
      { pending := (masterAt s.masters k).pending, answers := r :: (masterAt s.masters k).answers } := rfl
@[simp] theorem State.raiseBusError_eq (s : State) (k : Nat) (c : Fault) :
    s.raiseBusError k c = s.respond k (.busError c) := rfl

/-! `State.dropTurn` touches the turns only. -/

@[simp] theorem State.dropTurn_block (s : State) : s.dropTurn.block = s.block := rfl
@[simp] theorem State.dropTurn_masters (s : State) : s.dropTurn.masters = s.masters := rfl
@[simp] theorem State.dropTurn_turns (s : State) : s.dropTurn.turns = s.turns.tail := rfl
@[simp] theorem State.dropTurn_draws (s : State) : s.dropTurn.draws = s.draws := rfl

/-! `State.placeAccess` puts one access and one turn in front. -/

@[simp] theorem State.placeAccess_block (s : State) (a : HostOp) : (s.placeAccess a).block = s.block := rfl
@[simp] theorem State.placeAccess_pending (s : State) (a : HostOp) :
    (masterAt (s.placeAccess a).masters 0).pending = a :: (masterAt s.masters 0).pending :=
  congrArg Master.pending (masterAt_setMasterAt_same _ _ _)
@[simp] theorem State.placeAccess_nextTurn (s : State) (a : HostOp) :
    (s.placeAccess a).nextTurn = .host 0 := rfl

/-- The first host with an access pending, from what the hosts have pending (log entry 2). -/
theorem firstPending_eq {ms : List Master} {k : Nat} (hlow : ∀ j, j < k → (masterAt ms j).pending = [])
    (hk : (masterAt ms k).pending ≠ []) : firstPending ms = k := by
  induction ms generalizing k with
  | nil => simp [Master.silent] at hk
  | cons m ms ih =>
    cases k with
    | zero => simpa [firstPending, masterAt] using hk
    | succ k =>
      have h0 : m.pending = [] := hlow 0 (Nat.succ_pos k)
      simp only [firstPending, h0, List.isEmpty_nil, if_true, Nat.add_right_cancel_iff]
      exact ih (fun j hj => hlow (j + 1) (Nat.succ_lt_succ hj)) hk

/-! `Block.setErrcode` and `Block.raiseCmdError` touch `ERRCODE` only (R210). -/

@[simp] theorem Block.setErrcode_eq (b : Block) (e : ErrCode) :
    b.setErrcode e = { b with errcode := e } := rfl
@[simp] theorem Block.raiseCmdError_eq (b : Block) (e : ErrCode) :
    b.raiseCmdError e = { b with errcode := e } := rfl

/-! `Block.start` touches `ERRCODE`, `OP` and `PHASE` only (R86). -/

@[simp] theorem Block.start_acc (b : Block) (i : Instr) : (b.start i).acc = b.acc := rfl
@[simp] theorem Block.start_incTop (b : Block) (i : Instr) : (b.start i).incTop = b.incTop := rfl
@[simp] theorem Block.start_result (b : Block) (i : Instr) : (b.start i).result = b.result := rfl
@[simp] theorem Block.start_bound (b : Block) (i : Instr) : (b.start i).bound = b.bound := rfl
@[simp] theorem Block.start_arg0 (b : Block) (i : Instr) : (b.start i).arg0 = b.arg0 := rfl
@[simp] theorem Block.start_arg1 (b : Block) (i : Instr) : (b.start i).arg1 = b.arg1 := rfl
@[simp] theorem Block.start_errcode (b : Block) (i : Instr) : (b.start i).errcode = .ok := rfl
@[simp] theorem Block.start_phase (b : Block) (i : Instr) : (b.start i).phase = .busy := rfl
@[simp] theorem Block.start_op (b : Block) (i : Instr) : (b.start i).op = i := rfl
@[simp] theorem Block.start_thresh (b : Block) (i : Instr) : (b.start i).thresh = b.thresh := rfl

/-! `Block.setInc` touches the stored field of `INC` only (R22). -/

@[simp] theorem Block.setInc_acc (b : Block) (v : DWord) : (b.setInc v).acc = b.acc := rfl
@[simp] theorem Block.setInc_incTop (b : Block) (v : DWord) :
    (b.setInc v).incTop = v.extractLsb' 1 63 := rfl
@[simp] theorem Block.setInc_result (b : Block) (v : DWord) : (b.setInc v).result = b.result := rfl
@[simp] theorem Block.setInc_bound (b : Block) (v : DWord) : (b.setInc v).bound = b.bound := rfl
@[simp] theorem Block.setInc_arg0 (b : Block) (v : DWord) : (b.setInc v).arg0 = b.arg0 := rfl
@[simp] theorem Block.setInc_arg1 (b : Block) (v : DWord) : (b.setInc v).arg1 = b.arg1 := rfl
@[simp] theorem Block.setInc_errcode (b : Block) (v : DWord) : (b.setInc v).errcode = b.errcode := rfl
@[simp] theorem Block.setInc_phase (b : Block) (v : DWord) : (b.setInc v).phase = b.phase := rfl
@[simp] theorem Block.setInc_op (b : Block) (v : DWord) : (b.setInc v).op = b.op := rfl
@[simp] theorem Block.setInc_thresh (b : Block) (v : DWord) : (b.setInc v).thresh = b.thresh := rfl

/-! The engine transitions, field by field. Each leaves the operands, `ERRCODE`, `OP` and `THRESH`. -/

@[simp] theorem Block.seedTransition_arg0 (b : Block) : b.seedTransition.arg0 = b.arg0 := rfl
@[simp] theorem Block.seedTransition_arg1 (b : Block) : b.seedTransition.arg1 = b.arg1 := rfl
@[simp] theorem Block.seedTransition_bound (b : Block) : b.seedTransition.bound = b.bound := rfl
@[simp] theorem Block.seedTransition_result (b : Block) : b.seedTransition.result = b.result := rfl
@[simp] theorem Block.seedTransition_errcode (b : Block) : b.seedTransition.errcode = b.errcode := rfl
@[simp] theorem Block.seedTransition_phase (b : Block) : b.seedTransition.phase = .idle := rfl
@[simp] theorem Block.seedTransition_op (b : Block) : b.seedTransition.op = b.op := rfl
@[simp] theorem Block.seedTransition_thresh (b : Block) : b.seedTransition.thresh = b.thresh := rfl

@[simp] theorem Block.loadTransition_acc (b : Block) : b.loadTransition.acc = b.arg0 := rfl
@[simp] theorem Block.loadTransition_incTop (b : Block) :
    b.loadTransition.incTop = b.arg1.extractLsb' 1 63 := rfl
@[simp] theorem Block.loadTransition_arg0 (b : Block) : b.loadTransition.arg0 = b.arg0 := rfl
@[simp] theorem Block.loadTransition_arg1 (b : Block) : b.loadTransition.arg1 = b.arg1 := rfl
@[simp] theorem Block.loadTransition_bound (b : Block) : b.loadTransition.bound = b.bound := rfl
@[simp] theorem Block.loadTransition_result (b : Block) : b.loadTransition.result = b.result := rfl
@[simp] theorem Block.loadTransition_errcode (b : Block) : b.loadTransition.errcode = b.errcode := rfl
@[simp] theorem Block.loadTransition_phase (b : Block) : b.loadTransition.phase = .idle := rfl
@[simp] theorem Block.loadTransition_op (b : Block) : b.loadTransition.op = b.op := rfl
@[simp] theorem Block.loadTransition_thresh (b : Block) : b.loadTransition.thresh = b.thresh := rfl

@[simp] theorem Block.stepTransition_acc (b : Block) :
    b.stepTransition.acc = lcgNext b.acc b.inc := rfl
@[simp] theorem Block.stepTransition_result (b : Block) : b.stepTransition.result = output b.acc := rfl
@[simp] theorem Block.stepTransition_incTop (b : Block) : b.stepTransition.incTop = b.incTop := rfl
@[simp] theorem Block.stepTransition_arg0 (b : Block) : b.stepTransition.arg0 = b.arg0 := rfl
@[simp] theorem Block.stepTransition_arg1 (b : Block) : b.stepTransition.arg1 = b.arg1 := rfl
@[simp] theorem Block.stepTransition_bound (b : Block) : b.stepTransition.bound = b.bound := rfl
@[simp] theorem Block.stepTransition_errcode (b : Block) : b.stepTransition.errcode = b.errcode := rfl
@[simp] theorem Block.stepTransition_phase (b : Block) : b.stepTransition.phase = .idle := rfl
@[simp] theorem Block.stepTransition_op (b : Block) : b.stepTransition.op = b.op := rfl
@[simp] theorem Block.stepTransition_thresh (b : Block) : b.stepTransition.thresh = b.thresh := rfl

end Sys2Proof.Machine
end

