-- ==== Sys2Proof/Laws/Operands.lean ====
section
/-! SUPPORT. The halves of a 64-bit register, the hardwired bit of `INC`, and the register map. -/

namespace Sys2Proof.Machine

/-- Bit `i` of a value put together from two halves. -/
theorem getLsbD_halves (h l : Word) (i : Nat) :
    (h ++ l : DWord).getLsbD i = if i < 32 then l.getLsbD i else h.getLsbD (i - 32) := by
  have e := BitVec.getLsbD_append (x := h) (y := l) (i := i)
  refine e.trans ?_
  by_cases c : i < 32 <;> simp [c]

/-- Bit `i` of `INC`: bit 0 is hardwired (R22). -/
theorem Block.inc_getLsbD (b : Block) (i : Nat) :
    b.inc.getLsbD i = if i = 0 then true else b.incTop.getLsbD (i - 1) := by
  have e := BitVec.getLsbD_append (x := b.incTop) (y := 1#1) (i := i)
  refine e.trans ?_
  cases i <;> simp

@[simp] theorem loHalf_append (h l : Word) : loHalf (h ++ l) = l := by
  apply BitVec.eq_of_getLsbD_eq
  intro i hi
  rw [loHalf, BitVec.getLsbD_extractLsb', getLsbD_halves]
  simp [hi]

@[simp] theorem hiHalf_append (h l : Word) : hiHalf (h ++ l) = h := by
  apply BitVec.eq_of_getLsbD_eq
  intro i hi
  rw [hiHalf, BitVec.getLsbD_extractLsb', getLsbD_halves]
  simp [hi]

/-- A 64-bit value is its two halves, high half first (R58). -/
@[simp] theorem hiHalf_append_loHalf (v : DWord) : (hiHalf v ++ loHalf v : DWord) = v := by
  apply BitVec.eq_of_getLsbD_eq
  intro i hi
  rw [getLsbD_halves, hiHalf, loHalf, BitVec.getLsbD_extractLsb', BitVec.getLsbD_extractLsb']
  by_cases h : i < 32
  · simp [h]
  · have : i - 32 < 32 := by omega
    simp [h, this, show 32 + (i - 32) = i by omega]

/-- Writing both halves writes the whole register, in either order (R171). -/
@[simp] theorem setHi_setLo (x : DWord) (h l : Word) : setHi (setLo x l) h = h ++ l := by
  simp [setHi, setLo]

@[simp] theorem setLo_setHi (x : DWord) (h l : Word) : setLo (setHi x h) l = h ++ l := by
  simp [setHi, setLo]

/-- Loading `INC` forces bit 0 (R22, R128). -/
theorem Block.inc_setInc (b : Block) (v : DWord) : (b.setInc v).inc = v ||| 1#64 := by
  apply BitVec.eq_of_getLsbD_eq
  intro i hi
  rw [Block.inc_getLsbD, Block.setInc_incTop, BitVec.getLsbD_or, BitVec.getLsbD_extractLsb']
  cases i with
  | zero => simp
  | succ n =>
    have : n < 63 := by omega
    simp [BitVec.getLsbD_one, this, Nat.add_comm 1 n]

/-- The stored field determines `INC`. -/
theorem Block.inc_inj {a b : Block} : a.inc = b.inc ↔ a.incTop = b.incTop := by
  constructor
  · intro h
    apply BitVec.eq_of_getLsbD_eq
    intro i hi
    have e := congrArg (·.getLsbD (i + 1)) h
    simpa [Block.inc_getLsbD] using e
  · intro h
    simp [Block.inc, h]

/-- The register map read both ways (R27). -/
theorem Reg.ofOffset_eq_some : ∀ (off : Fin 64) (r : Reg), Reg.ofOffset off = some r ↔ off = r.offset := by
  intro off r
  revert off
  cases r <;> decide

@[simp] theorem Reg.ofOffset_offset (r : Reg) : Reg.ofOffset r.offset = some r := by
  cases r <;> rfl

/-- A register stands at every word offset below 0x30, and nowhere else (R27, R52). -/
theorem Reg.ofOffset_eq_none (off : Fin 64) :
    Reg.ofOffset off = none ↔ off.val % 4 ≠ 0 ∨ 0x30 ≤ off.val := by
  revert off
  decide

/-- Only `BOUND`, `ARG0` and `ARG1` can be changed by a register write (R64). -/
theorem Block.writeReg_frame (b : Block) (r : Reg) (v : Word) :
    (b.writeReg r v).acc = b.acc ∧ (b.writeReg r v).incTop = b.incTop ∧
    (b.writeReg r v).result = b.result ∧ (b.writeReg r v).errcode = b.errcode ∧
    (b.writeReg r v).phase = b.phase ∧ (b.writeReg r v).op = b.op ∧
    (b.writeReg r v).thresh = b.thresh := by
  cases r <;> simp [Block.writeReg]

/-- What a register write does to each operand register (R64). -/
theorem Block.writeReg_operands (b : Block) (r : Reg) (v : Word) :
    (r ≠ .bound → (b.writeReg r v).bound = b.bound) ∧
    (r ≠ .arg0Lo → r ≠ .arg0Hi → (b.writeReg r v).arg0 = b.arg0) ∧
    (r ≠ .arg1Lo → r ≠ .arg1Hi → (b.writeReg r v).arg1 = b.arg1) := by
  cases r <;> simp [Block.writeReg]

end Sys2Proof.Machine
end

