-- ==== Sys2Proof/Laws/Ops.lean ====
section
/-! SUPPORT. What each shared operation can do, said once: the bus checks, a read, a write, a command, a
turn. Later proofs cite these and do not unfold the operations. -/

namespace Sys2Proof.Machine

/-! The bus checks (R207). -/

theorem busCheck_misaligned (w : Bool) (off : Fin 64) (n : Nat) (p : Phase) (h : off.val % 4 ≠ 0) :
    busCheck w off n p = some .misaligned := by
  simp [busCheck, h]

theorem busCheck_badWidth (w : Bool) (off : Fin 64) (n : Nat) (p : Phase) (h : off.val % 4 = 0)
    (hn : n ≠ 32) : busCheck w off n p = some .badWidth := by
  simp [busCheck, h, hn, Config.dataWidth]

theorem busCheck_unmapped (w : Bool) (off : Fin 64) (p : Phase) (h : off.val % 4 = 0)
    (ho : 0x30 ≤ off.val) : busCheck w off 32 p = some .unmapped := by
  have e := (Reg.ofOffset_eq_none off).2 (Or.inr ho)
  simp [busCheck, h, e, Config.dataWidth]

/-- An aligned 32-bit access to a register: what is left of the checks. -/
theorem busCheck_register (w : Bool) (r : Reg) (p : Phase) :
    busCheck w r.offset 32 p =
      if w && r.readOnly then some .readOnly
      else if w && decide (p = .busy) then some .busy else none := by
  have h : r.offset.val % 4 = 0 := by cases r <;> rfl
  simp [busCheck, h, Config.dataWidth]

/-- An access is accepted exactly when it is an aligned 32-bit access to a register and, for a write, the
register is writable and no command is in progress. -/
theorem busCheck_eq_none (w : Bool) (off : Fin 64) (n : Nat) (p : Phase) :
    busCheck w off n p = none ↔
      n = 32 ∧ ∃ r : Reg, off = r.offset ∧ (w = true → r.readOnly = false ∧ p = .idle) := by
  constructor
  · intro h
    by_cases ha : off.val % 4 = 0
    · by_cases hn : n = 32
      · subst hn
        refine ⟨rfl, ?_⟩
        cases e : Reg.ofOffset off with
        | none =>
          rw [Reg.ofOffset_eq_none] at e
          rw [busCheck_unmapped w off p ha (by omega)] at h
          exact absurd h (by simp)
        | some r =>
          have e' := (Reg.ofOffset_eq_some off r).1 e
          subst e'
          refine ⟨r, rfl, ?_⟩
          rw [busCheck_register] at h
          intro hw
          subst hw
          cases hr : r.readOnly <;> cases p <;> simp_all
      · rw [busCheck_badWidth w off n p ha hn] at h
        exact absurd h (by simp)
    · rw [busCheck_misaligned w off n p ha] at h
      exact absurd h (by simp)
  · rintro ⟨rfl, r, rfl, h⟩
    rw [busCheck_register]
    cases w
    · simp
    · simp [h rfl]

/-! Reads (R63). -/

/-- A read delivers one word to its host, and changes nothing but the answer and the count of free values
(R61). -/
theorem State.deliver_spec (s : State) (k : Nat) (r : Reg) :
    ∃ v d, s.deliver k r = { s.respond k (.data v) with draws := d } ∧
      (s.block.readReg r = some v ∧ d = s.draws ∨
        s.block.readReg r = none ∧ v = r.openValue (Config.freeWord s.draws) ∧ d = s.draws + 1) := by
  cases h : s.block.readReg r with
  | some v => exact ⟨v, s.draws, by simp only [State.deliver, h]; rfl, .inl ⟨rfl, rfl⟩⟩
  | none =>
    exact ⟨r.openValue (Config.freeWord s.draws), s.draws + 1, by simp only [State.deliver, h],
      .inr ⟨rfl, rfl, rfl⟩⟩

/-- A read of any kind leaves the block, the other hosts, the rest of its host's stream and the turns
(R61, R206). -/
theorem State.busRead_cases (s : State) (k : Nat) (off : Fin 64) (n : Nat) :
    ∃ a d, s.busRead k off n = { s.respond k a with draws := d } := by
  unfold State.busRead
  split
  · exact ⟨_, s.draws, rfl⟩
  · rename_i h
    obtain ⟨-, r, rfl, -⟩ := (busCheck_eq_none _ _ _ _).1 h
    rw [Reg.ofOffset_offset]
    obtain ⟨v, d, h, -⟩ := s.deliver_spec k r
    exact ⟨_, d, h⟩

/-- An accepted read delivers its register (R63). -/
theorem State.busRead_register (s : State) (k : Nat) (r : Reg) : s.busRead k r.offset 32 = s.deliver k r := by
  simp [State.busRead, busCheck_register]

/-- A refused read answers its cause and nothing else (R206). -/
theorem State.busRead_refused (s : State) (k : Nat) (off : Fin 64) (n : Nat) (c : Fault)
    (h : busCheck false off n s.block.phase = some c) :
    s.busRead k off n = s.respond k (.busError c) := by
  simp [State.busRead, h]

/-! Commands. -/

/-- The start of a command (R86). -/
def Block.startOf : Instr → Block → Block
  | .seed => (·.start .seed)
  | .step => (·.start .step)
  | .bounded => Block.boundedStart
  | .loadst => (·.start .loadst)

/-- The engine transition of a command (R121, R126, R141, R153). -/
def Block.transitionOf : Instr → Block → Block
  | .seed => Block.seedTransition
  | .step => Block.stepTransition
  | .bounded => Block.drawTransition
  | .loadst => Block.loadTransition

/-- Each command's meaning is its start and its transition, run by the one shared operation. -/
theorem exec_eq (i : Instr) (s : State) :
    exec i s = .next (s.runCommand i (Block.startOf i) (Block.transitionOf i)) := by
  cases i <;> rfl

theorem exec_idle (i : Instr) (s : State) (h : s.block.phase = .idle) :
    exec i s = .next { s with block := Block.startOf i s.block } := by
  simp [exec_eq, State.runCommand, h]

theorem exec_busy (i : Instr) (s : State) (h : s.block.phase = .busy) (ho : s.block.op = i) :
    exec i s = .next { s with block := Block.transitionOf i s.block } := by
  simp [exec_eq, State.runCommand, h, ho]

theorem exec_other (i : Instr) (s : State) (h : s.block.phase = .busy) (ho : s.block.op ≠ i) :
    exec i s = .next s := by
  simp [exec_eq, State.runCommand, h, ho]

/-- A command changes only the block. -/
theorem exec_frame {i : Instr} {s t : State} (h : exec i s = .next t) :
    t = { s with block := t.block } := by
  rcases hp : s.block.phase with _ | _
  · rw [exec_idle i s hp] at h
    cases h
    rfl
  · by_cases ho : s.block.op = i
    · rw [exec_busy i s hp ho] at h
      cases h
      rfl
    · rw [exec_other i s hp ho] at h
      cases h
      rfl

/-- A draw is accepted, or only advances `ACC` (R153). -/
theorem Block.drawTransition_accept (b : Block) (h : b.thresh.toNat ≤ (output b.acc).toNat) :
    b.drawTransition =
      { b with acc := lcgNext b.acc b.inc, result := reduce (output b.acc) b.bound, phase := .idle } := by
  have e : accept (output b.acc) b.thresh = true := (accept_iff _ _).2 h
  unfold Block.drawTransition
  simp only [e, if_true]

theorem Block.drawTransition_reject (b : Block) (h : ¬ b.thresh.toNat ≤ (output b.acc).toNat) :
    b.drawTransition = { b with acc := lcgNext b.acc b.inc } := by
  have e : accept (output b.acc) b.thresh = false := by
    cases h' : accept (output b.acc) b.thresh
    · rfl
    · exact absurd ((accept_iff _ _).1 h') h
  unfold Block.drawTransition
  simp [e]

/-! What a draw leaves unchanged (R153). -/

@[simp] theorem Block.drawTransition_incTop (b : Block) : b.drawTransition.incTop = b.incTop := by
  unfold Block.drawTransition
  dsimp only
  split <;> rfl

@[simp] theorem Block.drawTransition_bound (b : Block) : b.drawTransition.bound = b.bound := by
  unfold Block.drawTransition
  dsimp only
  split <;> rfl

@[simp] theorem Block.drawTransition_arg0 (b : Block) : b.drawTransition.arg0 = b.arg0 := by
  unfold Block.drawTransition
  dsimp only
  split <;> rfl

@[simp] theorem Block.drawTransition_arg1 (b : Block) : b.drawTransition.arg1 = b.arg1 := by
  unfold Block.drawTransition
  dsimp only
  split <;> rfl

@[simp] theorem Block.drawTransition_errcode (b : Block) : b.drawTransition.errcode = b.errcode := by
  unfold Block.drawTransition
  dsimp only
  split <;> rfl

@[simp] theorem Block.drawTransition_op (b : Block) : b.drawTransition.op = b.op := by
  unfold Block.drawTransition
  dsimp only
  split <;> rfl

@[simp] theorem Block.drawTransition_thresh (b : Block) : b.drawTransition.thresh = b.thresh := by
  unfold Block.drawTransition
  dsimp only
  split <;> rfl

/-- A draw advances `ACC`, accepted or not (R153). -/
@[simp] theorem Block.drawTransition_acc (b : Block) : b.drawTransition.acc = lcgNext b.acc b.inc := by
  unfold Block.drawTransition
  dsimp only
  split <;> rfl

/-- The start of `BOUNDED` leaves the generator state, `RESULT` and the operands (R151, R152). -/
theorem Block.boundedStart_frame (b : Block) :
    b.boundedStart.acc = b.acc ∧ b.boundedStart.incTop = b.incTop ∧
    b.boundedStart.result = b.result ∧ b.boundedStart.bound = b.bound ∧
    b.boundedStart.arg0 = b.arg0 ∧ b.boundedStart.arg1 = b.arg1 := by
  unfold Block.boundedStart
  split <;> simp

/-- The start of `BOUNDED` (R151, R152). -/
theorem Block.boundedStart_zero (b : Block) (h : b.bound = 0#32) :
    b.boundedStart = { b with errcode := .boundZero } := by
  simp [Block.boundedStart, h]

theorem Block.boundedStart_nonzero (b : Block) (h : b.bound ≠ 0#32) :
    b.boundedStart =
      { b with errcode := .ok, op := .bounded, phase := .busy, thresh := threshold b.bound } := by
  simp [Block.boundedStart, h, Block.start]

/-! Writes (R64). -/

theorem busWrite_refused (k : Nat) (off : Fin 64) (n : Nat) (v : Word) (s : State) (c : Fault)
    (h : busCheck true off n s.block.phase = some c) :
    busWrite k off n v s = .next (s.respond k (.busError c)) := by
  simp [busWrite, h]

theorem busWrite_command (k : Nat) (v : Word) (s : State) (h : s.block.phase = .idle) :
    busWrite k Reg.cmd.offset 32 v s = issueWord v (s.respond k .written) := by
  simp [busWrite, busCheck_register, Reg.readOnly, h]

theorem busWrite_operand (k : Nat) (r : Reg) (v : Word) (s : State) (h : s.block.phase = .idle)
    (hr : r.readOnly = false) (hc : r ≠ .cmd) :
    busWrite k r.offset 32 v s = .next { s.respond k .written with block := s.block.writeReg r v } := by
  simp only [busWrite, busCheck_register, hr, h]
  cases r <;> simp_all

/-- The three things a write can be: refused, a command, or an operand. -/
theorem busWrite_cases (k : Nat) (off : Fin 64) (n : Nat) (v : Word) (s : State) :
    (∃ c, busCheck true off n s.block.phase = some c ∧
      busWrite k off n v s = .next (s.respond k (.busError c))) ∨
    (s.block.phase = .idle ∧ n = 32 ∧ off = Reg.cmd.offset ∧
      busWrite k off n v s = issueWord v (s.respond k .written)) ∨
    (s.block.phase = .idle ∧ n = 32 ∧ ∃ r : Reg, off = r.offset ∧ r.readOnly = false ∧ r ≠ .cmd ∧
      busWrite k off n v s = .next { s.respond k .written with block := s.block.writeReg r v }) := by
  cases h : busCheck true off n s.block.phase with
  | some c => exact .inl ⟨c, rfl, busWrite_refused k off n v s c h⟩
  | none =>
    obtain ⟨rfl, r, rfl, hw⟩ := (busCheck_eq_none _ _ _ _).1 h
    obtain ⟨hr, hp⟩ := hw rfl
    by_cases hc : r = .cmd
    · subst hc
      exact .inr (.inl ⟨hp, rfl, rfl, busWrite_command k v s hp⟩)
    · exact .inr (.inr ⟨hp, rfl, r, rfl, hr, hc, busWrite_operand k r v s hp hr hc⟩)

/-! Turns. -/

/-- What one step can do, by whose turn it is. -/
theorem step_cases {s t : State} (h : step s = .next t) :
    (s.nextTurn = .reset ∧ t = { s.dropTurn with block := Block.reset }) ∨
    (s.nextTurn = .engine ∧ s.block.phase = .idle ∧ t = s.dropTurn) ∨
    (s.nextTurn = .engine ∧ s.block.phase = .busy ∧
      t = { s.dropTurn with block := Block.transitionOf s.block.op s.block }) ∨
    (∃ k, s.nextTurn = .host k ∧ (s.master k).pending = [] ∧ t = s.dropTurn) ∨
    (∃ k, s.nextTurn = .host k ∧ ∃ a rest, (s.master k).pending = a :: rest ∧
      perform k a (s.dropTurn.setPending k rest) = .next t) := by
  unfold step takeTurn at h
  cases hn : s.nextTurn with
  | host k =>
    simp only [hn] at h
    unfold hostTurn at h
    cases hh : (s.master k).pending with
    | nil =>
      have e : (s.dropTurn.master k).pending = [] := hh
      rw [e] at h
      cases h
      exact .inr (.inr (.inr (.inl ⟨k, rfl, hh, rfl⟩)))
    | cons a rest =>
      have e : (s.dropTurn.master k).pending = a :: rest := hh
      rw [e] at h
      exact .inr (.inr (.inr (.inr ⟨k, rfl, a, rest, hh, h⟩)))
  | engine =>
    simp only [hn] at h
    unfold engineTurn at h
    cases hp : s.block.phase
    · simp only [State.dropTurn_block, hp] at h
      cases h
      simp
    · simp only [State.dropTurn_block, hp] at h
      rw [exec_busy _ _ (by simpa using hp) (by simp)] at h
      cases h
      simp
  | reset =>
    simp only [hn] at h
    unfold resetTurn at h
    cases h
    simp

/-- What performing an access can do: the block, by the register written when it is a write that the idle
block accepts, and nothing otherwise; of the environment, its own host and the count of free values. -/
theorem perform_cases {k : Nat} {a : HostOp} {s t : State} (h : perform k a s = .next t) :
    (∃ m d, t = { s.setMaster k m with block := t.block, draws := d }) ∧
    (t.block = s.block ∨
      (s.block.phase = .idle ∧ ∃ v, a = .write Reg.cmd.offset 32 v ∧
        ((∃ i, decodeWord v = .ok i ∧ t.block = Block.startOf i s.block) ∨
         (∃ r, decodeWord v = .reject r ∧ t.block = { s.block with errcode := .illegalCmd }))) ∨
      (s.block.phase = .idle ∧ ∃ (r : Reg) (v : Word), a = .write r.offset 32 v ∧ r.readOnly = false ∧
        r ≠ .cmd ∧ t.block = s.block.writeReg r v)) := by
  cases a with
  | read off n =>
    simp only [perform, Host.Outcome.next.injEq] at h
    subst h
    obtain ⟨a, d, e⟩ := s.busRead_cases k off n
    rw [e]
    exact ⟨⟨_, d, rfl⟩, .inl rfl⟩
  | write off n v =>
    simp only [perform] at h
    rcases busWrite_cases k off n v s with ⟨c, -, e⟩ | ⟨hp, rfl, rfl, e⟩ | ⟨hp, rfl, r, rfl, hr, hc, e⟩
    · rw [e] at h
      cases h
      exact ⟨⟨_, _, rfl⟩, .inl rfl⟩
    · rw [e] at h
      unfold issueWord at h
      cases hd : decodeWord v with
      | ok i =>
        simp only [hd] at h
        rw [exec_idle i _ (by simpa using hp)] at h
        cases h
        exact ⟨⟨_, _, rfl⟩, .inr (.inl ⟨hp, v, rfl, .inl ⟨i, hd, rfl⟩⟩)⟩
      | reject r =>
        simp only [hd] at h
        cases h
        exact ⟨⟨_, _, rfl⟩, .inr (.inl ⟨hp, v, rfl, .inr ⟨r, hd, rfl⟩⟩)⟩
    · rw [e] at h
      cases h
      exact ⟨⟨_, _, rfl⟩, .inr (.inr ⟨hp, r, v, rfl, hr, hc, rfl⟩)⟩
  | poll =>
    simp only [perform, Host.Outcome.next.injEq] at h
    subst h
    unfold State.pollStatus
    split
    · refine ⟨⟨{ pending := .poll :: (s.master k).pending,
                 answers := .data s.block.status :: (s.master k).answers }, s.draws, ?_⟩, .inl rfl⟩
      simp [State.setPending, State.setMaster, State.respond]
    · exact ⟨⟨_, _, rfl⟩, .inl rfl⟩
  | failIfBoundZero n =>
    simp only [perform, Host.Outcome.next.injEq] at h
    subst h
    unfold State.checkBoundZero
    split
    · refine ⟨⟨{ pending := (s.master k).pending.drop n,
                 answers := .callFailed .boundZero :: .data s.block.status :: (s.master k).answers },
               s.draws, ?_⟩, .inl rfl⟩
      simp [State.setPending, State.setMaster, State.respond]
    · exact ⟨⟨_, _, rfl⟩, .inl rfl⟩

/-- What performing an access can do to the block. -/
theorem perform_block {k : Nat} {a : HostOp} {s t : State} (h : perform k a s = .next t) :
    t.block = s.block ∨
    (s.block.phase = .idle ∧ ∃ v, a = .write Reg.cmd.offset 32 v ∧
      ((∃ i, decodeWord v = .ok i ∧ t.block = Block.startOf i s.block) ∨
       (∃ r, decodeWord v = .reject r ∧ t.block = { s.block with errcode := .illegalCmd }))) ∨
    (s.block.phase = .idle ∧ ∃ (r : Reg) (v : Word), a = .write r.offset 32 v ∧ r.readOnly = false ∧
      r ≠ .cmd ∧ t.block = s.block.writeReg r v) :=
  (perform_cases h).2

/-- Performing an access of one host leaves every other host (20_memory.md R68, 44_host_api.md R178). -/
theorem perform_other {j k : Nat} {a : HostOp} {s t : State} (h : perform k a s = .next t) (hj : j ≠ k) :
    t.master j = s.master j := by
  obtain ⟨⟨m, d, e⟩, -⟩ := perform_cases h
  rw [e]
  exact masterAt_setMasterAt_other _ _ hj

/-- Performing an access takes no turn. -/
theorem perform_turns {k : Nat} {a : HostOp} {s t : State} (h : perform k a s = .next t) :
    t.turns = s.turns := by
  obtain ⟨⟨m, d, e⟩, -⟩ := perform_cases h
  rw [e]
  rfl

end Sys2Proof.Machine
end

