-- ==== Sys2Proof/Laws/Access.lean ====
section
/-! SUPPORT. A host access as the statements speak of it: the state it is answered in, and the step that
performs it. -/

namespace Sys2Proof.Machine

@[simp] theorem State.answered_block (s : State) (k : Nat) (rest : List HostOp) (r : Response) :
    (s.answered k rest r).block = s.block := rfl
@[simp] theorem State.answered_turns (s : State) (k : Nat) (rest : List HostOp) (r : Response) :
    (s.answered k rest r).turns = s.turns.tail := rfl
@[simp] theorem State.answered_draws (s : State) (k : Nat) (rest : List HostOp) (r : Response) :
    (s.answered k rest r).draws = s.draws := rfl
@[simp] theorem State.answered_masters (s : State) (k : Nat) (rest : List HostOp) (r : Response) :
    (s.answered k rest r).masters =
      setMasterAt s.masters k { pending := rest, answers := r :: (masterAt s.masters k).answers } := rfl

/-- Answering the access that was taken off its host's stream is `answered`. -/
@[simp] theorem State.respond_taken (s : State) (k : Nat) (rest : List HostOp) (r : Response) :
    (s.dropTurn.setPending k rest).respond k r = s.answered k rest r := by
  simp [State.respond, State.setMaster, State.answered]

/-- Host `k`'s turn performs its access in front (20_memory.md R65). -/
theorem step_performs {s : State} {k : Nat} {a : HostOp} {rest : List HostOp} (hn : s.nextTurn = .host k)
    (hh : (s.master k).pending = a :: rest) : step s = perform k a (s.dropTurn.setPending k rest) := by
  have e : (s.dropTurn.master k).pending = a :: rest := hh
  simp only [step, hn, takeTurn, hostTurn, e]

/-- The engine's turn in a busy state is the transition of the command in progress (10_state.md R33, R34). -/
theorem step_transition {s : State} (hn : s.nextTurn = .engine) (hp : s.block.phase = .busy) :
    step s = .next { s.dropTurn with block := Block.transitionOf s.block.op s.block } := by
  simp only [step, hn, takeTurn, engineTurn, State.dropTurn_block, hp]
  exact exec_busy _ _ hp rfl

/-- `STATUS.BUSY` is 1 exactly while `PHASE = BUSY` (R33). -/
theorem statusBusy_status (b : Block) : statusBusy b.status = decide (b.phase = .busy) := by
  cases h : b.phase <;> cases h2 : b.errcode <;>
    simp [statusBusy, Block.status, h, h2, Phase.busyBit, ErrCode.code]

/-- A `POLL` performed while idle ends (44_host_api.md R170). -/
theorem step_poll_idle {s : State} {k : Nat} {rest : List HostOp} (hn : s.nextTurn = .host k)
    (hh : (s.master k).pending = .poll :: rest) (hp : s.block.phase = .idle) :
    step s = .next (s.answered k rest (.data s.block.status)) := by
  rw [step_performs hn hh]
  simp [perform, State.pollStatus, statusBusy_status, hp]

/-- A `POLL` performed while busy goes on (44_host_api.md R170). -/
theorem step_poll_busy {s : State} {k : Nat} {rest : List HostOp} (hn : s.nextTurn = .host k)
    (hh : (s.master k).pending = .poll :: rest) (hp : s.block.phase = .busy) :
    step s = .next (s.answered k (.poll :: rest) (.data s.block.status)) := by
  rw [step_performs hn hh]
  simp [perform, State.pollStatus, statusBusy_status, hp, State.setPending, State.setMaster, State.answered]

/-- The check of `pcg.boundedrand` while `ERRCODE` is not `BOUND_ZERO` is a read of `STATUS` (R173). -/
theorem step_check_passes {s : State} {k n : Nat} {rest : List HostOp} (hn : s.nextTurn = .host k)
    (hh : (s.master k).pending = .failIfBoundZero n :: rest)
    (he : statusErrcode s.block.status ≠ ErrCode.boundZero.code) :
    step s = .next (s.answered k rest (.data s.block.status)) := by
  rw [step_performs hn hh]
  simp [perform, State.checkBoundZero, he]

/-- The check of `pcg.boundedrand` while `ERRCODE` is `BOUND_ZERO` ends the call of its own host (R173). -/
theorem step_check_fails {s : State} {k n : Nat} {rest : List HostOp} (hn : s.nextTurn = .host k)
    (hh : (s.master k).pending = .failIfBoundZero n :: rest)
    (he : statusErrcode s.block.status = ErrCode.boundZero.code) :
    step s = .next ((s.answered k (rest.drop n) (.data s.block.status)).respond k (.callFailed .boundZero)) := by
  rw [step_performs hn hh]
  simp [perform, State.checkBoundZero, he, State.setPending, State.setMaster, State.answered, State.respond]

/-- An accepted read of a register that has a value (20_memory.md R63). -/
theorem step_reads {s : State} {k : Nat} {r : Reg} {rest : List HostOp} {v : Word}
    (hn : s.nextTurn = .host k) (hh : (s.master k).pending = .read r.offset 32 :: rest)
    (hv : s.block.readReg r = some v) : step s = .next (s.answered k rest (.data v)) := by
  rw [step_performs hn hh]
  simp [perform, State.busRead_register, State.deliver, hv]

/-- An accepted write of an operand register (20_memory.md R64). -/
theorem step_writes {s : State} {k : Nat} {r : Reg} {rest : List HostOp} {v : Word}
    (hn : s.nextTurn = .host k) (hp : s.block.phase = .idle)
    (hh : (s.master k).pending = .write r.offset 32 v :: rest) (hr : r.readOnly = false) (hc : r ≠ .cmd) :
    step s = .next { s.answered k rest .written with block := s.block.writeReg r v } := by
  rw [step_performs hn hh]
  simp only [perform]
  rw [busWrite_operand k r v _ (by exact hp) hr hc, State.respond_taken]
  rfl

/-- An accepted write of `CMD` issues its word (20_memory.md R64). -/
theorem step_issues {s : State} {k : Nat} {rest : List HostOp} {v : Word} (hn : s.nextTurn = .host k)
    (hp : s.block.phase = .idle) (hh : (s.master k).pending = .write Reg.cmd.offset 32 v :: rest) :
    step s = issueWord v (s.answered k rest .written) := by
  rw [step_performs hn hh]
  simp only [perform]
  rw [busWrite_command k v _ (by exact hp), State.respond_taken]

/-- One more draw of fuel (43_bounded.md R154). -/
theorem boundedDraw_succ (inc acc : DWord) (bound : Word) (fuel : Nat) :
    boundedDraw inc bound (fuel + 1) acc =
      if accept (output acc) (threshold bound) then some (lcgNext acc inc, reduce (output acc) bound)
      else boundedDraw inc bound fuel (lcgNext acc inc) := rfl

/-- With no turn of the environment's left, whose turn it is follows from the phase and from what the hosts
have pending (log entry 2). -/
theorem State.nextTurn_idle {s : State} {k : Nat} (ht : s.turns = []) (hp : s.block.phase = .idle)
    (hlow : ∀ j, j < k → (s.master j).pending = []) (hk : (s.master k).pending ≠ []) :
    s.nextTurn = .host k := by
  simp only [State.nextTurn, ht, hp, firstPending_eq hlow hk]

theorem State.nextTurn_busy {s : State} (ht : s.turns = []) (hp : s.block.phase = .busy) :
    s.nextTurn = .engine := by
  simp [State.nextTurn, ht, hp]

/-- A run is a step and a run. -/
theorem run_succ {s t : State} (k : Nat) (h : step s = .next t) :
    Host.Core.run Sys2Proof.core (k + 1) s = Host.Core.run Sys2Proof.core k t := by
  have e : Sys2Proof.core.step s = .next t := h
  simp only [Host.Core.run, e]

/-- A run goes on where a shorter one ended. -/
theorem run_add (j k : Nat) {s t : State} (h : Host.Core.run Sys2Proof.core j s = .next t) :
    Host.Core.run Sys2Proof.core (j + k) s = Host.Core.run Sys2Proof.core k t := by
  induction j generalizing s with
  | zero =>
    cases h
    rw [Nat.zero_add]
  | succ j ih =>
    cases hs : Sys2Proof.core.step s with
    | next u =>
      rw [run_succ j hs] at h
      rw [Nat.add_right_comm, run_succ _ hs, ih h]
    | fault r => simp only [Host.Core.run, hs] at h; cases h
    | refused r => simp only [Host.Core.run, hs] at h; cases h

@[simp] theorem run_zero (s : State) : Host.Core.run Sys2Proof.core 0 s = .next s := rfl

end Sys2Proof.Machine
end

