-- ==== Sys2Proof/Laws/PerInstr.lean ====
section
/-! SUPPORT. Statements for all instructions, one lemma per constructor. The family `TableRow` says that a
command's word is its row of spec/opcode_table.json: match `M` under mask `0xFFFFFFFF`, `OPCODE` in 3:0 and
`RSVD` zero in 31:4, and that the command has nothing to be ill-formed. -/

namespace Sys2Proof.Laws.TableRow

/-- The `match` of a command's row. -/
def rowMatch : Instr → Nat
  | .seed => 0x00000001
  | .step => 0x00000002
  | .bounded => 0x00000003
  | .loadst => 0x00000004

/-- The encoding is the row's, and its fields are those of R80. -/
def Statement (i : Instr) : Prop :=
  (encode i).toNat = rowMatch i ∧ (CmdWord.ofWord (encode i)).wellFormed = true ∧
    (CmdWord.ofWord (encode i)).toWord = encode i ∧ i.wellFormed = true

theorem seed : Statement .seed := by unfold Statement; decide
theorem step : Statement .step := by unfold Statement; decide
theorem bounded : Statement .bounded := by unfold Statement; decide
theorem loadst : Statement .loadst := by unfold Statement; decide

end Sys2Proof.Laws.TableRow
end

