-- ==== Sys2Proof/Laws/Period.lean ====
section
/-! SUPPORT. The LCG advance with an odd increment has full period 2^64: 43_bounded.md R156 takes this from
general knowledge (93 G3); here it is proved. The geometric sums `1 + a + ... + a^(k-1)` carry it: for
`a` of the form `4m+1` such a sum is divisible by `2^n` exactly when `k` is. -/

namespace Sys2Proof.Machine.Period

/-- `1 + a + ... + a^(k-1)`. -/
def geom (a : Nat) : Nat → Nat
  | 0 => 0
  | k + 1 => a * geom a k + 1

theorem geom_add (a j k : Nat) : geom a (j + k) = a ^ k * geom a j + geom a k := by
  induction k with
  | zero => simp [geom]
  | succ k ih => rw [← Nat.add_assoc, geom, ih, geom]; ring

theorem geom_double (a m : Nat) : geom a (2 * m) = geom a m * (a ^ m + 1) := by
  rw [Nat.two_mul, geom_add]; ring

/-- A sum of `k` odd terms has the parity of `k`. -/
theorem geom_parity (m k : Nat) : geom (4 * m + 1) k % 2 = k % 2 := by
  induction k with
  | zero => rfl
  | succ k ih =>
    have e : geom (4 * m + 1) (k + 1) = 2 * (2 * (m * geom (4 * m + 1) k)) + geom (4 * m + 1) k + 1 := by
      rw [geom]; ring
    omega

/-- A power of `4m+1` plus one is twice an odd number. -/
theorem pow_add_one (m k : Nat) : ∃ q, (4 * m + 1) ^ k + 1 = 2 * (2 * q + 1) := by
  induction k with
  | zero => exact ⟨0, rfl⟩
  | succ k ih =>
    obtain ⟨q, hq⟩ := ih
    have e : (4 * m + 1) ^ (k + 1) = 4 * (m * (4 * m + 1) ^ k) + (4 * m + 1) ^ k := by ring
    exact ⟨m * (4 * m + 1) ^ k + q, by omega⟩

/-- The sum of `k` terms is divisible by `2^n` exactly when `k` is. -/
theorem pow_dvd_geom (m n k : Nat) : 2 ^ n ∣ geom (4 * m + 1) k ↔ 2 ^ n ∣ k := by
  induction n generalizing k with
  | zero => simp
  | succ n ih =>
    rcases Nat.even_or_odd' k with ⟨j, rfl | rfl⟩
    · obtain ⟨q, hq⟩ := pow_add_one m j
      have e : geom (4 * m + 1) (2 * j) = 2 * ((2 * q + 1) * geom (4 * m + 1) j) := by
        rw [geom_double, hq]; ring
      have hc : Nat.Coprime (2 ^ n) (2 * q + 1) :=
        Nat.Coprime.pow_left n ((Nat.coprime_two_left).2 ⟨q, by ring⟩)
      rw [e, pow_succ, Nat.mul_comm (2 ^ n) 2, Nat.mul_dvd_mul_iff_left (by omega),
        Nat.mul_dvd_mul_iff_left (by omega), hc.dvd_mul_left, ih]
    · have hp := geom_parity m (2 * j + 1)
      have no : ∀ x : Nat, x % 2 = 1 → ¬ 2 ^ (n + 1) ∣ x := fun x hx hd => by
        have h2 : 2 ∣ x := (dvd_pow_self 2 (by omega)).trans hd
        omega
      exact iff_of_false (no _ (by omega)) (no _ (by omega))

/-- `k` advances, in closed form mod 2^64. -/
theorem iterate_mod (inc x : DWord) (k : Nat) :
    ((fun v => lcgNext v inc)^[k] x).toNat =
      (mul64.toNat ^ k * x.toNat + geom mul64.toNat k * inc.toNat) % 2 ^ 64 := by
  induction k with
  | zero => simp [geom, Nat.mod_eq_of_lt x.isLt]
  | succ k ih =>
    rw [Function.iterate_succ_apply', lcgNext, BitVec.toNat_add, BitVec.toNat_mul, ih]
    generalize mul64.toNat = a
    generalize inc.toNat = c
    generalize x.toNat = y
    rw [geom, Nat.mod_add_mod, Nat.add_mod, Nat.mul_mod, Nat.mod_mod, ← Nat.mul_mod, ← Nat.add_mod]
    congr 1
    ring

/-- `a^k` is `(a - 1)` times the sum, plus one. -/
theorem pow_eq_geom (b k : Nat) : (b + 1) ^ k = b * geom (b + 1) k + 1 := by
  induction k with
  | zero => simp [geom]
  | succ k ih => rw [pow_succ, ih, geom]; ring

theorem mul64_form : mul64.toNat = 4 * 1591034055961698251 + 1 := rfl

/-- With an odd increment, `k` advances come back to the start exactly when `2^64` divides `k`. -/
theorem iterate_fixed (inc x : DWord) (k : Nat) (h : inc.getLsbD 0 = true) :
    (fun v => lcgNext v inc)^[k] x = x ↔ 2 ^ 64 ∣ k := by
  have hc : inc.toNat % 2 = 1 := by
    have e : inc.toNat.testBit 0 = true := h
    simpa [Nat.testBit_zero] using e
  rw [← BitVec.toNat_inj, iterate_mod, mul64_form]
  have hx : x.toNat = x.toNat % 2 ^ 64 := (Nat.mod_eq_of_lt x.isLt).symm
  generalize x.toNat = y at *
  generalize inc.toNat = c at *
  generalize 1591034055961698251 = m
  rw [pow_eq_geom]
  have e : (4 * m * geom (4 * m + 1) k + 1) * y + geom (4 * m + 1) k * c =
      (4 * m * y + c) * geom (4 * m + 1) k + y := by ring
  have odd : Nat.Coprime (2 ^ 64) (4 * m * y + c) := by
    refine Nat.Coprime.pow_left 64 ((Nat.coprime_two_left).2 ⟨2 * (m * y) + c / 2, ?_⟩)
    have : 4 * m * y = 2 * (2 * (m * y)) := by ring
    omega
  rw [e, ← pow_dvd_geom m 64 k]
  generalize geom (4 * m + 1) k = g at *
  generalize 4 * m * y + c = u at *
  constructor
  · intro heq
    have hd : 2 ^ 64 ∣ u * g := by
      have := (Nat.modEq_iff_dvd' (n := 2 ^ 64) (show y ≤ u * g + y by omega)).1
        (by unfold Nat.ModEq; rw [heq]; exact hx.symm)
      simpa using this
    exact odd.dvd_of_dvd_mul_left hd
  · intro hd
    obtain ⟨q, rfl⟩ := hd
    rw [show u * (2 ^ 64 * q) + y = y + 2 ^ 64 * (u * q) by ring, Nat.add_mul_mod_self_left]
    exact hx.symm

/-- The first `2^64` values are all different. -/
theorem iterate_injOn (inc x : DWord) (h : inc.getLsbD 0 = true) :
    Function.Injective (fun k : Fin (2 ^ 64) => ((fun v => lcgNext v inc)^[k.val] x).toFin) := by
  have key : ∀ i j : Nat, i ≤ j → j < 2 ^ 64 →
      (fun v => lcgNext v inc)^[i] x = (fun v => lcgNext v inc)^[j] x → i = j := by
    intro i j hij hj heq
    have hr : (fun v => lcgNext v inc)^[j - i] ((fun v => lcgNext v inc)^[i] x) =
        (fun v => lcgNext v inc)^[i] x := by
      rw [← Function.iterate_add_apply, Nat.sub_add_cancel hij, heq]
    obtain ⟨q, hq⟩ := (iterate_fixed inc _ (j - i) h).1 hr
    rcases Nat.eq_zero_or_pos q with rfl | hpos
    · omega
    · have := Nat.le_mul_of_pos_right (2 ^ 64) hpos
      omega
  intro a b hab
  have hab' := BitVec.toFin_inj.1 hab
  rcases Nat.le_total a.val b.val with hle | hle
  · exact Fin.ext (key _ _ hle b.isLt hab')
  · exact Fin.ext (key _ _ hle a.isLt hab'.symm).symm

/-- Within `2^64` advances every 64-bit value is reached (93 G3). -/
theorem iterate_reaches (inc x y : DWord) (h : inc.getLsbD 0 = true) :
    ∃ k, k < 2 ^ 64 ∧ (fun v => lcgNext v inc)^[k] x = y := by
  obtain ⟨k, hk⟩ := (Finite.injective_iff_surjective.1 (iterate_injOn inc x h)) y.toFin
  exact ⟨k.val, k.isLt, BitVec.toFin_inj.1 hk⟩

end Sys2Proof.Machine.Period
end

