-- ==== Sys2Proof/Tests/Slice0.lean ====
section
/-! SUPPORT. Small tests on fixed values, their expected results from spec/95_test_vectors.md and the tables
of the rules, and a witness for the hypotheses of every statement. -/

namespace Sys2Proof.Tests

open Sys2Proof Sys2Proof.Machine

/-! Small states. -/

/-- The reset machine with other block registers, and accesses of host 0. -/
def machine (b : Block) (ops : List HostOp) : State :=
  { State.reset with block := b, masters := [{ pending := ops, answers := [] }] }

/-- The machine with these block registers after host 0 performed its only access. -/
def machineAfter (b : Block) (r : Response) : State :=
  { State.reset with block := b, masters := [{ pending := [], answers := [r] }] }

/-- A block with a command in progress; its bound is 6, whose threshold is 4 (Table T). -/
def running (op : Instr) (acc inc : DWord) : Block :=
  { ({ Block.reset with acc := acc, phase := .busy, op := op, bound := 6#32, thresh := 4#32 } : Block).setInc
      inc with phase := .busy }

/-- A block with operands and a command in progress. -/
def loaded (op : Instr) (arg0 arg1 : DWord) : Block :=
  { Block.reset with arg0 := arg0, arg1 := arg1, phase := .busy, op := op }

/-- The block after a run of one step, for an outcome that is a next state. -/
def blockOf : Host.Outcome State Fault Refusal → Option Block
  | .next s => some s.block
  | .fault _ => none
  | .refused _ => none

/-- Host 0's newest answer after one step. -/
def answerOf : Host.Outcome State Fault Refusal → Option Response
  | .next s => (s.master 0).answers.head?
  | .fault _ => none
  | .refused _ => none

/-! Well-formedness: an ill-formed word for each check (30_encoding.md R80, R82, R84). -/

theorem test_wellFormed_accepts_step : CmdWord.wellFormed { opcode := 2#4, rsvd := 0#28 } = true := by decide
theorem test_wellFormed_refuses_reserved_bits :
    CmdWord.wellFormed { opcode := 1#4, rsvd := 1#28 } = false := by decide
theorem test_wellFormed_refuses_top_reserved_bit :
    CmdWord.reservedClear (CmdWord.ofWord 0x80000001#32) = false := by decide
theorem test_wellFormed_refuses_opcode_zero : CmdWord.opcodeDefined { opcode := 0#4, rsvd := 0#28 } = false := by
  decide
theorem test_wellFormed_refuses_opcode_five : CmdWord.wellFormed { opcode := 5#4, rsvd := 0#28 } = false := by
  decide
theorem test_wellFormed_refuses_opcode_fifteen :
    CmdWord.wellFormed { opcode := 15#4, rsvd := 0#28 } = false := by decide

/-! Decoding: each word written out from 30_encoding.md R80 and R82. -/

theorem test_decode_seed : decodeWord 0b0000000000000000000000000000_0001#32 = .ok .seed := by decide
theorem test_decode_step : decodeWord 0b0000000000000000000000000000_0010#32 = .ok .step := by decide
theorem test_decode_bounded : decodeWord 0b0000000000000000000000000000_0011#32 = .ok .bounded := by decide
theorem test_decode_loadst : decodeWord 0b0000000000000000000000000000_0100#32 = .ok .loadst := by decide
theorem test_decode_zero : decodeWord 0#32 = .reject .reservedOpcode := by decide
theorem test_decode_five : decodeWord 5#32 = .reject .reservedOpcode := by decide
theorem test_decode_reserved_bit : decodeWord 0x11#32 = .reject .reservedBits := by decide
theorem test_decode_little_endian :
    decodeBytes [0x04#8, 0x00#8, 0x00#8, 0x00#8, 0xAA#8] = .ok (.loadst, [0xAA#8]) := by decide
theorem test_decode_big_endian_word : decodeBytes [0x00#8, 0x00#8, 0x00#8, 0x04#8] = .reject .reservedBits := by
  decide
theorem test_decode_truncated : decodeBytes [0x01#8, 0x00#8, 0x00#8] = .reject .truncated := by decide
theorem test_decodeTableWord_short_row : decodeTableWord 8 3 = some .bounded := by decide
theorem test_decodeTableWord_long_row : decodeTableWord 64 3 = none := by decide

/-! Thresholds (Table T). -/

theorem test_threshold_six : threshold 6#32 = 4#32 := by decide
theorem test_threshold_thousand : threshold 1000#32 = 296#32 := by decide

/-! `SEED` (Table S), `LOADST` (Table L), `STEP` (Table X), `BOUNDED` (Table B): one engine transition. -/

theorem test_seed_known_answer :
    (blockOf (exec .seed (machine (loaded .seed 0x2A#64 0x36#64) []))).map (fun b => (b.acc, b.inc)) =
      some (0x185706B82C2E03F8#64, 0x6D#64) := by decide
theorem test_seed_top_bit_discarded :
    (blockOf (exec .seed (machine (loaded .seed 0#64 0x8000000000000000#64) []))).map
      (fun b => (b.acc, b.inc)) = some (0x5851F42D4C957F2E#64, 1#64) := by decide
theorem test_loadst_forces_bit_zero :
    (blockOf (exec .loadst (machine
      (loaded .loadst 0xFFFFFFFFFFFFFFFF#64 0xFFFFFFFFFFFFFFFE#64) []))).map (fun b => (b.acc, b.inc)) =
      some (0xFFFFFFFFFFFFFFFF#64, 0xFFFFFFFFFFFFFFFF#64) := by decide
theorem test_loadst_zero_state :
    (blockOf (exec .loadst (machine (loaded .loadst 0#64 0#64) []))).map (fun b => (b.acc, b.inc, b.result)) =
      some (0#64, 1#64, 0#32) := by decide
theorem test_step_default_state :
    (blockOf (exec .step (machine (running .step 0x853C49E6748FEA9B#64 0xDA3E39CB94B95BDB#64) []))).map
      (fun b => (b.result, b.acc)) = some (0x152CA78D#32, 0xC83015CA079F7E1A#64) := by decide
theorem test_step_wraps_and_rotates_by_31 :
    (blockOf (exec .step (machine (running .step 0xFFFFFFFFFFFFFFFF#64 1#64) []))).map
      (fun b => (b.result, b.acc)) = some (0xFFF00001#32, 0xA7AE0BD2B36A80D4#64) := by decide
theorem test_bounded_accepts :
    (blockOf (exec .bounded (machine
      (running .bounded 0x853C49E6748FEA9B#64 0xDA3E39CB94B95BDB#64) []))).map
      (fun b => (b.result, b.acc, b.phase)) = some (1#32, 0xC83015CA079F7E1A#64, .idle) := by decide
theorem test_bounded_rejects :
    (blockOf (exec .bounded (machine (running .bounded 0#64 1#64) []))).map
      (fun b => (b.result, b.acc, b.phase)) = some (0#32, 1#64, .busy) := by decide

/-! Starts and command errors (Table E). -/

theorem test_bounded_zero_bound :
    (blockOf (step (machine Block.reset [.write 0x00 32 3#32]))).map Block.status = some 0x20#32 := by decide
theorem test_illegal_word :
    (blockOf (step (machine Block.reset [.write 0x00 32 0x11#32]))).map Block.status = some 0x10#32 := by decide
theorem test_start_clears_errcode :
    (blockOf (step (machine { Block.reset with errcode := .boundZero } [.write 0x00 32 2#32]))).map
      Block.status = some 0x01#32 := by decide

/-! Bus errors and reads (Tables E and R). -/

theorem test_read_misaligned :
    answerOf (step (machine Block.reset [.read 0x02 32])) = some (.busError .misaligned) := by decide
theorem test_misaligned_before_badWidth :
    answerOf (step (machine Block.reset [.write 0x01 8 6#32])) = some (.busError .misaligned) := by decide
theorem test_write_badWidth :
    answerOf (step (machine Block.reset [.write 0x0C 8 6#32])) = some (.busError .badWidth) := by decide
theorem test_read_unmapped :
    answerOf (step (machine Block.reset [.read 0x30 32])) = some (.busError .unmapped) := by decide
theorem test_readOnly_before_busy :
    answerOf (hostTurn 0 (machine (running .step 0#64 1#64) [.write 0x04 32 0#32])) =
      some (.busError .readOnly) := by decide
theorem test_write_while_busy :
    answerOf (hostTurn 0 (machine (running .step 0#64 1#64) [.write 0x0C 32 5#32])) =
      some (.busError .busy) := by decide
theorem test_status_while_busy :
    answerOf (hostTurn 0 (machine (running .step 0#64 1#64) [.read 0x04 32])) = some (.data 1#32) := by decide
theorem test_reset_reads :
    ([0x00, 0x04, 0x20, 0x24, 0x28, 0x2C] : List (Fin 64)).map
      (fun off => answerOf (step (machine Block.reset [.read off 32]))) =
      [some (.data 0#32), some (.data 0#32), some (.data 0x748FEA9B#32), some (.data 0x853C49E6#32),
        some (.data 0x94B95BDB#32), some (.data 0xDA3E39CB#32)] := by decide
theorem test_write_arg1_high_half :
    (blockOf (step (machine Block.reset [.write 0x1C 32 0xDA3E39CB#32]))).map Block.arg1 =
      some 0xDA3E39CB00000000#64 := by decide
theorem test_fetched_word_runs :
    (blockOf (step (State.reset.withFetchWord 32 4))).map (fun b => (b.phase, b.op)) =
      some (.busy, .loadst) := by decide

/-! Several hosts (44_host_api.md R178): what one host's access leaves of the other host. -/

/-- What the first two hosts have pending after host 0's turn. -/
def pendingOf (a b : List HostOp) (block : Block) : Option (List HostOp × List HostOp) :=
  match hostTurn 0 { State.reset with
      block := block, masters := [{ pending := a, answers := [] }, { pending := b, answers := [] }] } with
  | .next s => some ((s.master 0).pending, (s.master 1).pending)
  | .fault _ => none
  | .refused _ => none

theorem test_poll_goes_on_at_its_own_host :
    pendingOf [.poll, .read 0x08 32] [.read 0x04 32] (running .step 0#64 1#64) =
      some ([.poll, .read 0x08 32], [.read 0x04 32]) := by decide
theorem test_failed_check_ends_its_own_call_only :
    pendingOf ((pcgBoundedrand 0#32 ++ pcgSave).drop 2) [.read 0x08 32, .poll]
      { Block.reset with errcode := .boundZero } = some (pcgSave, [.read 0x08 32, .poll]) := by decide

/-! Witnesses: for every statement with hypotheses, a concrete case that meets them all; one for each clause
at a boundary of its range. -/

/-- An engine's or a platform's turn next. -/
def withTurn (t : Turn) (s : State) : State := { s with turns := [t] }

theorem witness_OtherWordsAreRejectedByName :
    16 ≤ (16#32).toNat ∧ 16 ≤ (0xFFFFFFFF#32).toNat ∧ (0#32).toNat = 0 ∧
      (5 ≤ (5#32).toNat ∧ (5#32).toNat < 16) ∧ (5 ≤ (15#32).toNat ∧ (15#32).toNat < 16) := by decide

theorem witness_StepRunsTheDecodedCommand : ∃ (s : State) (w : Word) (rest : List HostOp) (i : Instr),
    s.nextTurn = .host 0 ∧ s.block.phase = .idle ∧ (s.master 0).pending = .write 0x00 32 w :: rest ∧
      decodeWord w = .ok i :=
  ⟨machine Block.reset [.write 0x00 32 1#32], 1#32, [], .seed, by decide⟩

theorem witness_EngineTurnRunsTheCommandInProgress : ∃ s : State,
    s.nextTurn = .engine ∧ s.block.phase = .busy :=
  ⟨machine (running .step 0#64 1#64) [], by decide⟩

theorem witness_PlacedCommandWordRunsNext : ∃ (s : State) (w : Nat) (i : Instr),
    s.block.phase = .idle ∧ w < 2 ^ 32 ∧ decodeTableWord 32 w = some i :=
  ⟨State.reset, 2, .step, by decide⟩

theorem witness_IllegalCommandWordOnlySetsErrcode : ∀ w ∈ [0x0#32, 0x5#32, 0xF#32, 0x11#32, 0x80000001#32],
    ∃ (s : State) (rest : List HostOp),
      s.nextTurn = .host 0 ∧ s.block.phase = .idle ∧ (s.master 0).pending = .write 0x00 32 w :: rest ∧
      (w.extractLsb' 0 4 = 0x0#4 ∨ 0x5 ≤ (w.extractLsb' 0 4).toNat ∨ w.extractLsb' 4 28 ≠ 0#28) := by
  intro w hw
  refine ⟨machine Block.reset [.write 0x00 32 w], [], rfl, rfl, rfl, ?_⟩
  simp only [List.mem_cons, List.not_mem_nil, or_false] at hw
  rcases hw with rfl | rfl | rfl | rfl | rfl <;> decide

theorem witness_SeedStepAndLoadstStartFromIdle : ∀ i ∈ [Instr.seed, .step, .loadst],
    (i = .seed ∨ i = .step ∨ i = .loadst) ∧ State.reset.block.phase = .idle := by decide

theorem witness_BoundedStartComputesTheThresholdOnce : ∃ s u : State,
    s.block.phase = .idle ∧ s.block.bound ≠ 0#32 ∧ u.block.phase = .busy ∧ u.block.op = .bounded :=
  ⟨machine { Block.reset with bound := 0xFFFFFFFF#32 } [], machine (running .bounded 0#64 1#64) [], by decide⟩

theorem witness_BoundedWithZeroBoundIsRefused : ∃ (s : State) (rest : List HostOp),
    s.nextTurn = .host 0 ∧ s.block.phase = .idle ∧ (s.master 0).pending = .write 0x00 32 0x00000003#32 :: rest ∧
      s.block.bound = 0#32 :=
  ⟨machine Block.reset [.write 0x00 32 3#32], [], by decide⟩

theorem witness_SeedTransitionHasItsClosedForm : ∃ s : State, s.block.phase = .busy ∧ s.block.op = .seed :=
  ⟨machine (loaded .seed 42#64 54#64) [], by decide⟩

theorem witness_SeedDependsOnlyOnItsOperands : ∀ a ∈ [0#64, 0x8000000000000000#64], ∃ s₁ s₂ : State,
    s₁.block.phase = .busy ∧ s₁.block.op = .seed ∧ s₂.block.phase = .busy ∧ s₂.block.op = .seed ∧
      s₁.block.arg0 = s₂.block.arg0 ∧
      (s₁.block.arg1 = s₂.block.arg1 ∨ s₁.block.arg1 = s₂.block.arg1 ^^^ 0x8000000000000000#64) := by
  intro a ha
  refine ⟨machine (loaded .seed 7#64 a) [], machine (loaded .seed 7#64 0#64) [], rfl, rfl, rfl, rfl, rfl, ?_⟩
  simp only [List.mem_cons, List.not_mem_nil, or_false] at ha
  rcases ha with rfl | rfl <;> decide

theorem witness_LoadstInstallsTheGivenState : ∃ s : State, s.block.phase = .busy ∧ s.block.op = .loadst :=
  ⟨machine (loaded .loadst 0#64 0#64) [], by decide⟩

theorem witness_StepReturnsXshRrOfTheOldState : ∃ s : State, s.block.phase = .busy ∧ s.block.op = .step :=
  ⟨machine (running .step 1#64 1#64) [], by decide⟩

theorem witness_XorshiftAndRotationBits : (0 ≤ 18 ∧ 18 ≤ 18) ∧ (19 ≤ 19 ∧ 19 ≤ 31) ∧ (19 ≤ 31 ∧ 31 ≤ 31) := by
  decide

theorem witness_RotateRightMovesEveryBit : ((0#32).toNat ≤ 31 ∧ 0#32 = 0#32) ∧
    ((1#32).toNat ≤ 31 ∧ 1 ≤ (1#32).toNat) ∧ ((31#32).toNat ≤ 31 ∧ 1 ≤ (31#32).toNat) ∧ 31 < 32 := by decide

theorem witness_BoundedDrawAcceptsOrDiscards : ∃ s u : State,
    (s.block.phase = .busy ∧ s.block.op = .bounded ∧ s.block.bound ≠ 0#32 ∧
      s.block.thresh.toNat ≤ (output s.block.acc).toNat) ∧
    (u.block.phase = .busy ∧ u.block.op = .bounded ∧ u.block.bound ≠ 0#32 ∧
      (output u.block.acc).toNat < u.block.thresh.toNat) :=
  ⟨machine (running .bounded 0x853C49E6748FEA9B#64 1#64) [], machine (running .bounded 0#64 1#64) [], by decide⟩

theorem witness_BoundedResultIsBelowItsBound : ∃ s t : State,
    s.block.phase = .busy ∧ s.block.op = .bounded ∧ s.block.bound ≠ 0#32 ∧
      exec .bounded s = .next t ∧ t.block.phase = .idle :=
  ⟨machine (running .bounded 0x853C49E6748FEA9B#64 1#64) [],
    machine (running .bounded 0x853C49E6748FEA9B#64 1#64).drawTransition [],
    by decide, by decide, by decide, rfl, by decide⟩

theorem witness_PowerOfTwoBoundTakesOneDraw : ∀ k ∈ [0, 31], ∃ s : State,
    k < 32 ∧ s.block.phase = .busy ∧ s.block.op = .bounded ∧ s.block.bound = 1#32 <<< k ∧
      s.block.thresh = threshold s.block.bound := by
  intro k hk
  refine ⟨machine { running .bounded 0#64 1#64 with
    bound := 1#32 <<< k, thresh := threshold (1#32 <<< k) } [], ?_, rfl, rfl, rfl, rfl⟩
  revert k
  decide

theorem witness_DrawsDependOnlyOnGeneratorStateAndBound : ∀ i ∈ [Instr.step, .bounded], ∃ s₁ s₂ : State,
    (i = .step ∨ i = .bounded) ∧ s₁.block.phase = .busy ∧ s₁.block.op = i ∧ s₂.block.phase = .busy ∧
      s₂.block.op = i ∧ s₁.block.acc = s₂.block.acc ∧ s₁.block.inc = s₂.block.inc ∧
      s₁.block.bound = s₂.block.bound ∧ s₁.block.thresh = s₂.block.thresh ∧ s₁ ≠ s₂ := by
  intro i hi
  refine ⟨machine (running i 5#64 3#64) [], machine { running i 5#64 3#64 with result := 9#32 } [], ?_⟩
  revert i
  decide

theorem witness_OneTransitionCommandsCompleteAtOnce : ∀ i ∈ [Instr.seed, .step, .loadst],
    (i = .seed ∨ i = .step ∨ i = .loadst) ∧ State.reset.block.phase = .idle := by decide

theorem witness_CommandHasNoEffectWhileAnotherRuns : ∃ (i : Instr) (s : State),
    s.block.phase = .busy ∧ s.block.op ≠ i :=
  ⟨.seed, machine (running .step 0#64 1#64) [], by decide⟩

theorem witness_CommandsLeaveEverythingElseUnchanged : ∀ i : Instr, ∃ s t u v : State,
    (exec i s = .next t ∧ s.block.phase = .idle) ∧ (exec i u = .next v ∧ u.block.phase = .busy) ∧
      0x0C ≤ (0x0C : Fin 64).val ∧ (0x1F : Fin 64).val < 0x20 := by
  intro i
  exact ⟨State.reset, _, machine (running i 5#64 3#64) [], _, ⟨exec_idle i _ rfl, rfl⟩, ⟨exec_busy i _ rfl rfl, rfl⟩,
    by decide⟩

theorem witness_ThresholdIsTwoToThe32ModBound : 1#32 ≠ 0#32 ∧ 0xFFFFFFFF#32 ≠ 0#32 := by decide

theorem witness_AcceptedDrawsAreUnbiased : 6#32 ≠ 0#32 ∧ 0 < (6#32).toNat ∧ 5 < (6#32).toNat := by decide

theorem witness_WorkedCommandExamples : ∃ s u : State,
    (s.block.phase = .busy ∧ s.block.op = .seed ∧ s.block.arg0 = 42#64 ∧ s.block.arg1 = 54#64) ∧
    (u.block.phase = .busy ∧ u.block.op = .step ∧ u.block.acc = 0x185706B82C2E03F8#64 ∧
      u.block.inc = 0x6D#64) :=
  ⟨machine (loaded .seed 42#64 54#64) [], machine (running .step 0x185706B82C2E03F8#64 0x6D#64) [], by decide⟩

theorem witness_BoundedIsTheSourcesRejectionLoop : ∃ (s : State) (fuel : Nat) (a : DWord) (r : Word),
    s.turns = [] ∧ s.block.phase = .busy ∧ s.block.op = .bounded ∧ s.block.bound ≠ 0#32 ∧
      s.block.thresh = threshold s.block.bound ∧
      boundedDraw s.block.inc s.block.bound fuel s.block.acc = some (a, r) :=
  ⟨machine { running .bounded 0#64 1#64 with bound := 0xFFFFFFFF#32, thresh := 1#32 } [], 3,
    0xC0B18CCF4E252D17#64, 0xE4C14788#32, by decide⟩

theorem witness_EveryBoundedCommandCompletes : ∃ s : State,
    s.turns = [] ∧ s.block.phase = .busy ∧ s.block.op = .bounded ∧ s.block.bound ≠ 0#32 ∧
      s.block.thresh = threshold s.block.bound :=
  ⟨machine (running .bounded 0#64 1#64) [], by decide⟩

theorem witness_EveryPollEnds : ∃ (s : State) (rest : List HostOp),
    s.block.Inv ∧ (s.master 0).pending = .poll :: rest ∧ s.block.phase = .busy ∧ s.turns = [.host 0, .host 3] :=
  ⟨{ machine (running .bounded 0#64 1#64) [.poll] with turns := [.host 0, .host 3] }, [], by decide⟩

theorem witness_HostAccessesDoNotDisturbTheCommand : ∃ (s : State) (ts : List Turn),
    s.block.phase = .busy ∧ s.turns = [0, 1].map .host ++ .engine :: ts :=
  ⟨{ machine (running .seed 0#64 1#64) [.read 0x20 32, .write 0x0C 32 1#32] with
      turns := [.host 0, .host 1, .engine, .reset] }, [.reset], by decide⟩

theorem witness_EveryStepKeepsTheInvariant : ∃ s t : State,
    s.block.Inv ∧ step s = .next t ∧ t.block.phase = .busy ∧ t.block.op = .bounded :=
  ⟨machine { Block.reset with bound := 6#32 } [.write 0x00 32 3#32],
    machineAfter { ({ Block.reset with bound := 6#32 } : Block).boundedStart with op := .bounded } .written,
    by decide, rfl, by decide⟩

theorem witness_OnlyTheNamedEventsWriteEachRegister : ∃ s t : State,
    step s = .next t ∧ s.nextTurn ≠ .reset ∧ t.block.bound ≠ s.block.bound :=
  ⟨machine Block.reset [.write 0x0C 32 6#32],
    machineAfter { Block.reset with bound := 6#32 } .written, rfl, by decide⟩

theorem witness_PhaseChangesOnlyAtStartCompletionAndReset : ∃ s t u v x y : State,
    (step s = .next t ∧ s.block.phase = .idle ∧ t.block.phase = .busy) ∧
    (step u = .next v ∧ u.block.phase = .busy ∧ v.block.phase = .idle) ∧
    (step x = .next y ∧ x.nextTurn = .reset) ∧ (State.reset.block.phase = .idle) :=
  ⟨machine Block.reset [.write 0x00 32 2#32],
    machineAfter { Block.reset with phase := .busy, op := .step } .written,
    machine (running .step 0#64 1#64) [], machine (running .step 0#64 1#64).stepTransition [],
    withTurn .reset (machine (running .step 0#64 1#64) []), machine Block.reset [],
    ⟨rfl, by decide⟩, ⟨rfl, by decide⟩, ⟨rfl, by decide⟩, by decide⟩

theorem witness_ReadsAndBusyAccessesLeaveTheBlock : ∃ s t u v : State,
    (s.nextTurn = .host 0 ∧ step s = .next t ∧ s.block.phase = .busy) ∧
    (u.nextTurn = .host 0 ∧ step u = .next v ∧ ∀ off n w rest, (u.master 0).pending ≠ .write off n w :: rest) :=
  ⟨withTurn (.host 0) (machine (running .step 0#64 1#64) [.write 0x00 32 1#32]),
    machineAfter (running .step 0#64 1#64) (.busError .busy),
    machine Block.reset [.read 0x04 32], machineAfter Block.reset (.data 0#32),
    ⟨by decide, rfl, by decide⟩, ⟨by decide, rfl, by intro off n w rest h; cases h⟩⟩

theorem witness_ErrcodeIsTheOutcomeOfTheLastCommandWrite : ∃ s t u v x y : State,
    (s.nextTurn = .host 0 ∧ s.block.phase = .idle ∧ (s.master 0).pending = .write 0x00 32 3#32 :: [] ∧
      step s = .next t) ∧
    (step u = .next v ∧ u.nextTurn ≠ .reset ∧
      ¬ ∃ k w rest, u.nextTurn = .host k ∧ u.block.phase = .idle ∧
        (u.master k).pending = .write 0x00 32 w :: rest) ∧
    (step x = .next y ∧ x.nextTurn = .reset) :=
  ⟨machine Block.reset [.write 0x00 32 3#32],
    machineAfter { Block.reset with errcode := .boundZero } .written,
    State.reset, State.reset, withTurn .reset State.reset, State.reset,
    ⟨by decide, by decide, by decide, rfl⟩,
    ⟨rfl, by decide, by rintro ⟨k, w, rest, -, -, h⟩; cases h⟩, ⟨rfl, by decide⟩⟩

theorem witness_IdleBlockKeepsAllItsState : ∃ s u : State,
    (s.block.phase = .idle ∧ s.nextTurn = .engine) ∧
    (u.block.phase = .idle ∧ u.nextTurn = .host 0 ∧ (u.master 0).pending = []) :=
  ⟨withTurn .engine State.reset, State.reset, by decide⟩

/-- Every clause of the statement on bus errors, by its access and phase. -/
theorem witness_BusErrorIsTheFirstThatApplies :
    (0x3F : Fin 64).val % 4 ≠ 0 ∧ ((0x00 : Fin 64).val % 4 = 0 ∧ 64 ≠ 32) ∧
    ((0x30 : Fin 64).val % 4 = 0 ∧ 0x30 ≤ (0x30 : Fin 64).val) ∧ 0x30 ≤ (0x3C : Fin 64).val ∧
    (0x2C : Fin 64) ∈ ([0x04, 0x08, 0x20, 0x24, 0x28, 0x2C] : List (Fin 64)) ∧
    (0x1C : Fin 64) ∈ ([0x0C, 0x10, 0x14, 0x18, 0x1C] : List (Fin 64)) ∧
    ((0x2C : Fin 64).val % 4 = 0 ∧ (0x2C : Fin 64).val < 0x30) ∧
    ∀ off : Fin 64, ∃ (s : State) (a : HostOp) (u : State) (b : HostOp) (v : Word),
      (s.nextTurn = .host 0 ∧ (s.master 0).pending = a :: [] ∧ a = .read off 32 ∧ s.block.phase = .idle) ∧
      (u.nextTurn = .host 0 ∧ (u.master 0).pending = b :: [] ∧ b = .write off 32 v ∧ u.block.phase = .busy) := by
  refine ⟨by decide, by decide, by decide, by decide, by decide, by decide, by decide, fun off => ?_⟩
  exact ⟨machine Block.reset [.read off 32], .read off 32,
    withTurn (.host 0) (machine (running .step 0#64 1#64) [.write off 32 7#32]), .write off 32 7#32, 7#32,
    ⟨rfl, rfl, rfl, rfl⟩, ⟨rfl, rfl, rfl, rfl⟩⟩

theorem witness_AcceptedReadsDeliverTheirRegister : ∀ off : Fin 64, ∃ (s u : State) (rest : List HostOp),
    (s.nextTurn = .host 0 ∧ (s.master 0).pending = .read off 32 :: rest ∧ s.block.phase = .idle) ∧
    (u.nextTurn = .host 0 ∧ (u.master 0).pending = .read off 32 :: rest ∧ u.block.phase = .busy) := by
  intro off
  exact ⟨machine Block.reset [.read off 32], withTurn (.host 0) (machine (running .step 0#64 1#64) [.read off 32]),
    [], ⟨rfl, rfl, rfl⟩, ⟨rfl, rfl, rfl⟩⟩

theorem witness_AcceptedWritesSetTheirRegister : ∀ (off : Fin 64) (v : Word), ∃ (s : State) (rest : List HostOp),
    s.nextTurn = .host 0 ∧ s.block.phase = .idle ∧ (s.master 0).pending = .write off 32 v :: rest := by
  intro off v
  exact ⟨machine Block.reset [.write off 32 v], [], rfl, rfl, rfl⟩

theorem witness_WindowShowsSixtyFourBitRegistersLittleEndian :
    Block.reset.phase = .idle ∧ 0 < 8 ∧ 7 < 8 ∧ (0x10 : Fin 64).val = 0x10 + 0 ∧ (0x17 : Fin 64).val = 0x10 + 7 ∧
      (0x1F : Fin 64).val = 0x18 + 7 ∧ (0x20 : Fin 64).val = 0x20 + 0 ∧ (0x27 : Fin 64).val = 0x20 + 7 ∧
      (0x2F : Fin 64).val = 0x28 + 7 := by decide

theorem witness_ResetAbandonsTheCommandInProgress : ∃ s : State,
    s.nextTurn = .reset ∧ s.block.phase = .busy :=
  ⟨withTurn .reset (machine (running .bounded 0#64 1#64) []), by decide⟩

theorem witness_ResetLeavesTheHostsSide : ∃ s : State,
    s.nextTurn = .reset ∧ (s.master 1).pending = [.poll] ∧ (s.master 1).answers = [.written] :=
  ⟨{ State.reset with turns := [.reset], masters := [.silent, { pending := [.poll], answers := [.written] }] },
    by decide⟩

/-- Host 1 with these accesses pending on an idle block, host 0 with none and host 2 with one. -/
def shared (ops : List HostOp) : State :=
  { State.reset with masters := [{ pending := [], answers := [.written] }, { pending := ops, answers := [] },
      { pending := [.read 0x04 32], answers := [] }] }

theorem witness_EachHostKeepsItsOwnStream : ∃ s t u v x y : State,
    (s.nextTurn = .host 1 ∧ step s = .next t ∧ (t.master 1).pending ≠ (s.master 1).pending) ∧
    (u.nextTurn = .host 0 ∧ step u = .next v ∧ (v.master 0).pending = (u.master 0).pending ∧
      (u.master 0).pending = [.poll]) ∧
    (x.nextTurn = .engine ∧ step x = .next y) :=
  ⟨shared [.read 0x08 32],
    { State.reset with masters := [{ pending := [], answers := [.written] },
        { pending := [], answers := [.data 0#32] }, { pending := [.read 0x04 32], answers := [] }] },
    withTurn (.host 0) (machine (running .bounded 0#64 1#64) [.poll]),
    { State.reset with
        block := running .bounded 0#64 1#64
        masters := [{ pending := [.poll], answers := [.data 1#32] }] },
    withTurn .engine State.reset, State.reset,
    ⟨by decide, rfl, by decide⟩, ⟨by decide, rfl, by decide⟩, ⟨by decide, rfl⟩⟩

theorem witness_BlockDoesNotTellHostsApart : ∃ (s : State) (a : HostOp) (rj rk : List HostOp),
    (s.master 0).pending = a :: rj ∧ (s.master 2).pending = a :: rk ∧ rj ≠ rk :=
  ⟨{ State.reset with masters := [{ pending := [.write 0x00 32 2#32], answers := [] }, .silent,
      { pending := [.write 0x00 32 2#32, .poll], answers := [] }] }, .write 0x00 32 2#32, [], [.poll], by decide⟩

/-- Both directions: host 1 overwrites host 0's operands, and host 0 overwrites host 1's. -/
theorem witness_InterleavedHostsCorruptEachOther : ∀ p ∈ [(0, 1), (1, 0)],
    ∃ (s : State) (a b a' b' : DWord) (ts : List Turn), p.1 ≠ p.2 ∧ s.block.phase = .idle ∧
    (s.master p.1).pending = pcgSrandom a b ++ [] ∧ (s.master p.2).pending = pcgSrandom a' b' ++ [] ∧
    s.turns = List.replicate 4 (.host p.1) ++ List.replicate 4 (.host p.2) ++
      [.host p.1, .engine, .host p.1] ++ ts ∧ a ≠ a' ∧ b ≠ b' := by
  intro p hp
  simp only [List.mem_cons, List.not_mem_nil, or_false] at hp
  have both (x y : DWord × DWord) (ts : List Turn) : ∃ s : State, s.block.phase = .idle ∧ s.turns = ts ∧
      (s.master 0).pending = pcgSrandom x.1 x.2 ++ [] ∧ (s.master 1).pending = pcgSrandom y.1 y.2 ++ [] :=
    ⟨{ State.reset with
        masters := [{ pending := pcgSrandom x.1 x.2 ++ [], answers := [] },
          { pending := pcgSrandom y.1 y.2 ++ [], answers := [] }],
        turns := ts }, rfl, rfl, rfl, rfl⟩
  rcases hp with rfl | rfl
  · obtain ⟨s, h1, h2, h3, h4⟩ := both (42#64, 54#64) (1#64, 2#64)
      (List.replicate 4 (.host 0) ++ List.replicate 4 (.host 1) ++ [.host 0, .engine, .host 0] ++ [])
    exact ⟨s, 42#64, 54#64, 1#64, 2#64, [], by decide, h1, h3, h4, h2, by decide, by decide⟩
  · obtain ⟨s, h1, h2, h3, h4⟩ := both (42#64, 54#64) (1#64, 2#64)
      (List.replicate 4 (.host 1) ++ List.replicate 4 (.host 0) ++ [.host 1, .engine, .host 1] ++ [])
    exact ⟨s, 1#64, 2#64, 42#64, 54#64, [], by decide, h1, h4, h3, h2, by decide, by decide⟩

theorem witness_PcgSaveReadsTheWholeState : ∃ (s : State) (k : Nat) (rest : List HostOp),
    s.turns = [] ∧ s.block.phase = .idle ∧ (∀ j, j < k → (s.master j).pending = []) ∧
      (s.master k).pending = pcgSave ++ rest :=
  ⟨shared pcgSave, 1, [], by decide⟩

theorem witness_PcgRestoreLoadsTheState : ∃ (s : State) (k : Nat) (x y : DWord) (rest : List HostOp),
    s.turns = [] ∧ s.block.phase = .idle ∧ (∀ j, j < k → (s.master j).pending = []) ∧
      (s.master k).pending = pcgRestore x y ++ rest ∧ y.getLsbD 0 = true :=
  ⟨shared (pcgRestore 1#64 3#64), 1, 1#64, 3#64, [], by decide⟩

theorem witness_PcgSrandomSeedsTheBlock : ∃ (s : State) (k : Nat) (a b : DWord) (rest : List HostOp),
    s.turns = [] ∧ s.block.phase = .idle ∧ (∀ j, j < k → (s.master j).pending = []) ∧
      (s.master k).pending = pcgSrandom a b ++ rest :=
  ⟨shared (pcgSrandom 42#64 54#64), 1, 42#64, 54#64, [], by decide⟩

theorem witness_PcgRandomReturnsTheNextOutput : ∃ (s : State) (k : Nat) (rest : List HostOp),
    s.turns = [] ∧ s.block.phase = .idle ∧ (∀ j, j < k → (s.master j).pending = []) ∧
      (s.master k).pending = pcgRandom ++ rest :=
  ⟨shared pcgRandom, 1, [], by decide⟩

theorem witness_PcgBoundedrandFailsOnZeroAndElseReturns : ∀ b ∈ [0#32, 6#32],
    ∃ (s : State) (k : Nat) (rest : List HostOp), s.turns = [] ∧ s.block.phase = .idle ∧
      (∀ j, j < k → (s.master j).pending = []) ∧ (s.master k).pending = pcgBoundedrand b ++ rest := by
  intro b _
  exact ⟨machine Block.reset (pcgBoundedrand b), 0, [], rfl, rfl, by simp, by simp [machine, masterAt]⟩

end Sys2Proof.Tests
end

section
/-! SUPPORT. What one step does to the block, the decoder read backwards, and what a start and an engine
transition do to `ERRCODE`, `PHASE` and `OP`. -/

namespace Sys2Proof.Machine

/-! The decoder (30_encoding.md R80, R82). -/

/-- The fields of a word put together again are the word (R80). -/
@[simp] theorem toWord_ofWord (w : Word) : (CmdWord.ofWord w).toWord = w :=
  (BitVec.extractLsb'_append_extractLsb'_eq_extractLsb' rfl).trans BitVec.extractLsb'_eq_self

theorem decodeOpcode_eq_ok_iff (op : BitVec 4) (i : Instr) : decodeOpcode op = .ok i ↔ op = opcodeOf i := by
  constructor
  · intro h
    unfold decodeOpcode at h
    split_ifs at h <;> cases h <;> assumption
  · rintro rfl
    cases i <;> rfl

/-- A word selects a command exactly when it is the command's own word (R82, R83). -/
theorem decodeWord_eq_ok_iff (w : Word) (i : Instr) : decodeWord w = .ok i ↔ w = encode i := by
  constructor
  · intro h
    unfold decodeWord at h
    split at h
    case isTrue hr =>
      have hop := (decodeOpcode_eq_ok_iff _ _).1 h
      have hrsvd : (CmdWord.ofWord w).rsvd = 0#28 := by simpa [CmdWord.reservedClear] using hr
      rw [← toWord_ofWord w, CmdWord.toWord, hop, hrsvd]
      rfl
    case isFalse => cases h
  · rintro rfl
    cases i <;> rfl

/-- A rejected word is none of the four command words (R84). -/
theorem ne_encode_of_decodeWord_reject {w : Word} {r : DecodeReject} (h : decodeWord w = .reject r) (i : Instr) :
    w ≠ encode i := by
  intro e
  rw [(decodeWord_eq_ok_iff w i).2 e] at h
  cases h

/-! Starts and engine transitions. -/

/-- A start is refused, which only sets `ERRCODE` (R151), or it starts the command (R86). -/
theorem Block.startOf_cases (i : Instr) (b : Block) :
    (i = .bounded ∧ b.bound = 0#32 ∧ Block.startOf i b = { b with errcode := .boundZero }) ∨
    ((i = .bounded → b.bound ≠ 0#32) ∧ (Block.startOf i b).errcode = .ok ∧
      (Block.startOf i b).phase = .busy ∧ (Block.startOf i b).op = i) := by
  cases i with
  | bounded =>
    by_cases h : b.bound = 0#32
    · exact .inl ⟨rfl, h, b.boundedStart_zero h⟩
    · exact .inr ⟨fun _ => h, by simp [Block.startOf, b.boundedStart_nonzero h]⟩
  | seed => exact .inr ⟨nofun, rfl, rfl, rfl⟩
  | step => exact .inr ⟨nofun, rfl, rfl, rfl⟩
  | loadst => exact .inr ⟨nofun, rfl, rfl, rfl⟩

/-- No engine transition writes `ERRCODE` (10_state.md R31). -/
@[simp] theorem Block.transitionOf_errcode (i : Instr) (b : Block) :
    (Block.transitionOf i b).errcode = b.errcode := by
  cases i <;> simp [Block.transitionOf]

/-! Steps. -/

/-- A reset puts the block in its reset state, in either phase (70_reset_and_hazards.md R231). -/
theorem step_resets {s : State} (hn : s.nextTurn = .reset) :
    step s = .next { s.dropTurn with block := Block.reset } := by
  simp only [step, hn, takeTurn, resetTurn]

/-- What one step can do to the block: reset, an engine transition, a command write, an operand write, or
nothing (00_scope.md R18). -/
theorem step_block_cases {s t : State} (h : step s = .next t) :
    (s.nextTurn = .reset ∧ t.block = Block.reset) ∨
    (s.nextTurn = .engine ∧ s.block.phase = .busy ∧ t.block = Block.transitionOf s.block.op s.block) ∨
    (∃ k w rest, s.nextTurn = .host k ∧ s.block.phase = .idle ∧
      (s.master k).pending = .write Reg.cmd.offset 32 w :: rest ∧
      ((∃ i, decodeWord w = .ok i ∧ t.block = Block.startOf i s.block) ∨
       (∃ r, decodeWord w = .reject r ∧ t.block = { s.block with errcode := .illegalCmd }))) ∨
    (∃ k r w rest, s.nextTurn = .host k ∧ s.block.phase = .idle ∧
      (s.master k).pending = .write (Reg.offset r) 32 w :: rest ∧ r.readOnly = false ∧ r ≠ .cmd ∧
      t.block = s.block.writeReg r w) ∨
    t.block = s.block := by
  rcases step_cases h with ⟨hn, rfl⟩ | ⟨-, -, rfl⟩ | ⟨hn, hp, rfl⟩ | ⟨k, -, -, rfl⟩ | ⟨k, hn, a, rest, hh, hperf⟩
  · exact .inl ⟨hn, rfl⟩
  · exact .inr (.inr (.inr (.inr rfl)))
  · exact .inr (.inl ⟨hn, hp, rfl⟩)
  · exact .inr (.inr (.inr (.inr rfl)))
  · rcases perform_block hperf with hb | ⟨hp, w, rfl, hb⟩ | ⟨hp, r, w, rfl, hr, hc, hb⟩
    · exact .inr (.inr (.inr (.inr hb)))
    · exact .inr (.inr (.inl ⟨k, w, rest, hn, hp, hh, hb⟩))
    · exact .inr (.inr (.inr (.inl ⟨k, r, w, rest, hn, hp, hh, hr, hc, hb⟩)))

/-- What an accepted command write does to the block (20_memory.md R64, 30_encoding.md R84, R86). -/
theorem step_command_block {s t : State} {k : Nat} {w : Word} {rest : List HostOp} (hn : s.nextTurn = .host k)
    (hp : s.block.phase = .idle) (hh : (s.master k).pending = .write Reg.cmd.offset 32 w :: rest)
    (h : step s = .next t) :
    (∃ i, w = encode i ∧ t.block = Block.startOf i s.block) ∨
    ((∀ i, w ≠ encode i) ∧ t.block = { s.block with errcode := .illegalCmd }) := by
  rw [step_issues hn hp hh, issueWord] at h
  cases hd : decodeWord w with
  | ok i =>
    simp only [hd] at h
    rw [exec_idle i (s.answered k rest .written) hp] at h
    cases h
    exact .inl ⟨i, (decodeWord_eq_ok_iff w i).1 hd, rfl⟩
  | reject r =>
    simp only [hd] at h
    cases h
    exact .inr ⟨ne_encode_of_decodeWord_reject hd, rfl⟩

end Sys2Proof.Machine
end

section
/-! PROOFS. The statements on the state (10_state.md): `PHASE`, `ERRCODE` and the hardwired bit of `INC`. -/

namespace Sys2Proof.Machine

/-! `PHASE` (R33). -/

theorem status_bit_zero (b : Block) : b.status.getLsbD 0 = true ↔ b.phase = .busy := by
  rw [show b.status.getLsbD 0 = decide (b.phase = .busy) from statusBusy_status b, decide_eq_true_iff]

/-- Only an accepted command write that starts its command makes an idle block busy. -/
theorem step_idle_to_busy {s t : State} (h : step s = .next t) (hs : s.block.phase = .idle)
    (ht : t.block.phase = .busy) :
    ∃ k w rest i, s.nextTurn = .host k ∧ (s.master k).pending = .write 0x00 32 w :: rest ∧ decodeWord w = .ok i ∧
      t.block.op = i ∧ t.block.errcode = .ok ∧ (i = .bounded → s.block.bound ≠ 0#32) := by
  rcases step_block_cases h with ⟨-, hb⟩ | ⟨-, hp, -⟩ | ⟨k, w, rest, hn, -, hh, hcmd⟩ |
    ⟨k, r, w, rest, -, -, -, -, -, hb⟩ | hb
  · simp [hb, Block.reset] at ht
  · simp [hs] at hp
  · rcases hcmd with ⟨i, hd, hb⟩ | ⟨r, -, hb⟩
    · rcases Block.startOf_cases i s.block with ⟨-, -, e⟩ | ⟨hbound, herr, -, hop⟩
      · simp [hb, e, hs] at ht
      · exact ⟨k, w, rest, i, hn, hh, hd, hb ▸ hop, hb ▸ herr, hbound⟩
    · simp [hb, hs] at ht
  · obtain ⟨-, -, -, -, hphase, -⟩ := s.block.writeReg_frame r w
    simp [hb, hphase, hs] at ht
  · simp [hb, hs] at ht

/-- Only an engine transition or a reset makes a busy block idle. -/
theorem step_busy_to_idle {s t : State} (h : step s = .next t) (hs : s.block.phase = .busy)
    (ht : t.block.phase = .idle) : s.nextTurn = .reset ∨ s.nextTurn = .engine := by
  rcases step_block_cases h with ⟨hn, -⟩ | ⟨hn, -⟩ | ⟨k, w, rest, -, hp, -⟩ | ⟨k, r, w, rest, -, hp, -⟩ | hb
  · exact .inl hn
  · exact .inr hn
  · simp [hs] at hp
  · simp [hs] at hp
  · simp [hb, hs] at ht

/-- Settles O37: by what one step can do to the block. -/
theorem phaseChangesOnlyAtStartCompletionAndReset : Obligations.PhaseChangesOnlyAtStartCompletionAndReset := by
  refine ⟨status_bit_zero, fun i s hp hbound => ?_, fun s t => step_idle_to_busy, fun s t => step_busy_to_idle,
    fun s t h hn => ?_⟩
  · refine ⟨_, exec_idle i s hp, ?_⟩
    rcases Block.startOf_cases i s.block with ⟨hi, hz, -⟩ | ⟨-, -, hphase, hop⟩
    · exact absurd hz (hbound hi)
    · exact ⟨hphase, hop⟩
  · rw [step_resets hn] at h
    cases h
    rfl

/-! `ERRCODE` (R31). -/

/-- The outcome of an accepted command write. -/
theorem step_command_errcode {s t : State} {k : Nat} {w : Word} {rest : List HostOp} (hn : s.nextTurn = .host k)
    (hp : s.block.phase = .idle) (hh : (s.master k).pending = .write Reg.cmd.offset 32 w :: rest)
    (h : step s = .next t) :
    t.block.errcode.code =
      if w ≠ 1#32 ∧ w ≠ 2#32 ∧ w ≠ 3#32 ∧ w ≠ 4#32 then 1#4
      else if w = 3#32 ∧ s.block.bound = 0#32 then 2#4 else 0#4 := by
  rcases step_command_block hn hp hh h with ⟨i, rfl, hb⟩ | ⟨hne, hb⟩
  · have hlegal : ¬ (encode i ≠ 1#32 ∧ encode i ≠ 2#32 ∧ encode i ≠ 3#32 ∧ encode i ≠ 4#32) := by
      cases i <;> decide
    have hthree : encode i = 3#32 ↔ i = .bounded := by cases i <;> decide
    rw [if_neg hlegal, hb]
    rcases Block.startOf_cases i s.block with ⟨hi, hz, e⟩ | ⟨hbound, herr, -, -⟩
    · rw [if_pos ⟨hthree.2 hi, hz⟩, e]
      rfl
    · rw [if_neg (fun ⟨h3, hz⟩ => hbound (hthree.1 h3) hz), herr]
      rfl
  · rw [if_pos ⟨hne .seed, hne .step, hne .bounded, hne .loadst⟩, hb]
    rfl

/-- A step that is neither a reset nor an accepted command write leaves `ERRCODE`. -/
theorem step_keeps_errcode {s t : State} (h : step s = .next t) (hn : s.nextTurn ≠ .reset)
    (hcmd : ¬ ∃ k w rest, s.nextTurn = .host k ∧ s.block.phase = .idle ∧
      (s.master k).pending = .write 0x00 32 w :: rest) :
    t.block.errcode = s.block.errcode := by
  rcases step_block_cases h with ⟨hr, -⟩ | ⟨-, -, hb⟩ | ⟨k, w, rest, hk, hp, hh, -⟩ |
    ⟨k, r, w, rest, -, -, -, -, -, hb⟩ | hb
  · exact absurd hr hn
  · rw [hb, Block.transitionOf_errcode]
  · exact absurd ⟨k, w, rest, hk, hp, hh⟩ hcmd
  · obtain ⟨-, -, -, herr, -⟩ := s.block.writeReg_frame r w
    rw [hb, herr]
  · rw [hb]

/-- Settles O39: the outcome of a command write, by the word; and what every other step does. -/
theorem errcodeIsTheOutcomeOfTheLastCommandWrite : Obligations.ErrcodeIsTheOutcomeOfTheLastCommandWrite := by
  refine ⟨fun s t k w rest hn hp hh h => step_command_errcode hn hp hh h, fun s t => step_keeps_errcode,
    fun s t h hn => ?_⟩
  rw [step_resets hn] at h
  cases h
  rfl

/-! `INC[0]` (R22). -/

/-- Settles O46: bit 0 of `INC` is no stored bit, and loading `INC` forces it. -/
theorem incrementBitZeroIsHardwired : Obligations.IncrementBitZeroIsHardwired :=
  ⟨fun b => by rw [Block.inc_getLsbD, if_pos rfl], Block.inc_setInc⟩

end Sys2Proof.Machine
end

section
/-! SUPPORT. The register window: what a read answers where the spec leaves the value open, `STATUS` as a number,
and the window byte by byte. -/

namespace Sys2Proof.Machine

/-- Two registers never share an offset (10_state.md R27). -/
theorem Reg.offset_injective : Function.Injective Reg.offset := fun a b h =>
  Option.some.inj (by rw [← Reg.ofOffset_offset a, h, Reg.ofOffset_offset])

/-! Reads (20_memory.md R63). -/

/-- R63 leaves a value open for the halves of `ACC` and `INC` while `BUSY`, and for nothing else. -/
theorem Block.readReg_eq_none_iff (b : Block) (r : Reg) :
    b.readReg r = none ↔ b.phase = .busy ∧ (r = .accLo ∨ r = .accHi ∨ r = .incLo ∨ r = .incHi) := by
  cases r <;> cases hp : b.phase <;> simp [Block.readReg, hp]

/-- An accepted read of a register whose value is open delivers a free value and counts it (R63). -/
theorem step_reads_open {s : State} {k : Nat} {r : Reg} {rest : List HostOp} (hn : s.nextTurn = .host k)
    (hh : (s.master k).pending = .read r.offset 32 :: rest) (hv : s.block.readReg r = none) :
    step s = .next { s.answered k rest (.data (r.openValue (Config.freeWord s.draws))) with
      draws := s.draws + 1 } := by
  rw [step_performs hn hh]
  simp [perform, State.busRead_register, State.deliver, hv]

/-- A free value of `INC_LO` has bit 0 set, as the register itself has (R22, R63). -/
theorem Reg.openValue_incLo_bit_zero (v : Word) : (Reg.openValue .incLo v).getLsbD 0 = true := by
  simp [Reg.openValue]

/-- `STATUS` as a number (10_state.md R30). -/
theorem Block.status_toNat (b : Block) :
    b.status.toNat = 16 * b.errcode.code.toNat + if b.phase = .busy then 1 else 0 := by
  cases he : b.errcode <;> cases hp : b.phase <;> simp [Block.status, he, hp, ErrCode.code, Phase.busyBit]

/-! The window as bytes (20_memory.md R57, R58). -/

/-- Lane `k` of the low half is byte `k` of the whole. -/
theorem laneOf_loHalf (v : DWord) {k : Nat} (hk : k < 4) : laneOf (loHalf v) k = v.extractLsb' (8 * k) 8 := by
  apply BitVec.eq_of_getLsbD_eq
  intro i hi
  have : 8 * k + i < 32 := by omega
  simp [laneOf, loHalf, this]

/-- Lane `k` of the high half is byte `4 + k` of the whole. -/
theorem laneOf_hiHalf (v : DWord) {k : Nat} (hk : k < 4) :
    laneOf (hiHalf v) k = v.extractLsb' (8 * (4 + k)) 8 := by
  apply BitVec.eq_of_getLsbD_eq
  intro i hi
  have : 8 * k + i < 32 := by omega
  simp [laneOf, hiHalf, this, show 32 + (8 * k + i) = 8 * (4 + k) + i by omega]

/-- The byte `j` above a register's offset is lane `j` of its value (R57). -/
theorem Block.windowByte_register {b : Block} {r : Reg} {w : Word} {off : Fin 64} {j : Nat}
    (hw : b.readReg r = some w) (hj : j < 4) (hoff : off.val = r.offset.val + j) :
    b.windowByte off = some (laneOf w j) := by
  have haligned : r.offset.val % 4 = 0 := by cases r <;> rfl
  have hreg : (⟨4 * (off.val / 4), by omega⟩ : Fin 64) = r.offset := Fin.ext (by simp only; omega)
  have hlane : off.val % 4 = j := by omega
  simp only [Block.windowByte, hreg, Reg.ofOffset_offset, hw, hlane, laneOf]

/-- Two neighbouring registers that read as the halves of a 64-bit value show its eight bytes in little-endian
order (R58). -/
theorem Block.windowByte_pair {b : Block} {lo hi : Reg} {v : DWord} {off : Fin 64} {k : Nat}
    (hlo : b.readReg lo = some (loHalf v)) (hhi : b.readReg hi = some (hiHalf v))
    (hnext : hi.offset.val = lo.offset.val + 4) (hk : k < 8) (hoff : off.val = lo.offset.val + k) :
    b.windowByte off = some (v.extractLsb' (8 * k) 8) := by
  by_cases h : k < 4
  · rw [b.windowByte_register hlo h hoff, laneOf_loHalf v h]
  · obtain ⟨j, rfl⟩ := Nat.exists_eq_add_of_le (Nat.le_of_not_lt h)
    have hj : j < 4 := by omega
    rw [b.windowByte_register hhi hj (by omega), laneOf_hiHalf v hj]

end Sys2Proof.Machine
end

section
/-! PROOFS. The statements on the register window (20_memory.md). -/

namespace Sys2Proof.Machine

/-- Settles O43: a read of a register that has a value delivers it; the others are those that R63 leaves open. -/
theorem acceptedReadsDeliverTheirRegister : Obligations.AcceptedReadsDeliverTheirRegister := by
  intro s k off rest hn hh
  have reads (r : Reg) {v : Word} (hoff : off = r.offset) (hv : s.block.readReg r = some v) :
      step s = .next (s.answered k rest (.data v)) := step_reads hn (hoff ▸ hh) hv
  refine ⟨(reads .cmd · rfl), fun h => ⟨_, reads .status h rfl, s.block.status_toNat⟩, (reads .result · rfl),
    (reads .bound · rfl), (reads .arg0Lo · rfl), (reads .arg0Hi · rfl), (reads .arg1Lo · rfl),
    (reads .arg1Hi · rfl), fun hp => ?idle, fun hp hoff => ?busy⟩
  case idle =>
    exact ⟨(reads .accLo · (if_pos hp)), (reads .accHi · (if_pos hp)), (reads .incLo · (if_pos hp)),
      (reads .incHi · (if_pos hp))⟩
  case busy =>
    have reg : ∃ r : Reg, off = r.offset ∧ (r = .accLo ∨ r = .accHi ∨ r = .incLo ∨ r = .incHi) := by
      rcases hoff with h | h | h | h
      · exact ⟨.accLo, h, by decide⟩
      · exact ⟨.accHi, h, by decide⟩
      · exact ⟨.incLo, h, by decide⟩
      · exact ⟨.incHi, h, by decide⟩
    obtain ⟨r, rfl, hr⟩ := reg
    refine ⟨_, step_reads_open hn hh ((s.block.readReg_eq_none_iff r).2 ⟨hp, hr⟩),
      fun (h : r.offset = Reg.incLo.offset) => ?_⟩
    rw [Reg.offset_injective h]
    exact Reg.openValue_incLo_bit_zero _

/-- Settles O44: by the register that stands at each writable offset. -/
theorem acceptedWritesSetTheirRegister : Obligations.AcceptedWritesSetTheirRegister := by
  intro s k off v rest hn hp hh
  have writes (r : Reg) (hr : r.readOnly = false) (hc : r ≠ .cmd) (hoff : off = r.offset) :
      step s = .next { s.answered k rest .written with block := s.block.writeReg r v } :=
    step_writes hn hp (hoff ▸ hh) hr hc
  exact ⟨fun (h : off = Reg.cmd.offset) => step_issues hn hp (h ▸ hh), writes .bound rfl nofun,
    writes .arg0Lo rfl nofun, writes .arg0Hi rfl nofun, writes .arg1Lo rfl nofun, writes .arg1Hi rfl nofun⟩

/-- Settles O47: each of the four registers is a pair of neighbouring halves. -/
theorem windowShowsSixtyFourBitRegistersLittleEndian :
    Obligations.WindowShowsSixtyFourBitRegistersLittleEndian := by
  intro b off k hk
  exact ⟨Block.windowByte_pair (lo := .arg0Lo) (hi := .arg0Hi) rfl rfl rfl hk,
    Block.windowByte_pair (lo := .arg1Lo) (hi := .arg1Hi) rfl rfl rfl hk,
    fun hp => Block.windowByte_pair (lo := .accLo) (hi := .accHi) (if_pos hp) (if_pos hp) rfl hk,
    fun hp => Block.windowByte_pair (lo := .incLo) (hi := .incHi) (if_pos hp) (if_pos hp) rfl hk⟩

/-- The block sees exactly the addresses of its window, as offsets from the base (R51). -/
theorem windowOffset_eq_some_iff (base addr : Nat) (off : Fin 64) :
    windowOffset base addr = some off ↔ addr = base + off.val := by
  unfold windowOffset
  split
  case isTrue h =>
    rw [Option.some_inj, Fin.ext_iff]
    show addr - base = off.val ↔ _
    omega
  case isFalse h =>
    have : addr ≠ base + off.val := by omega
    simp [this]

/-- Settles O48: the base is a product with 64, and an offset is an address below the window's end. -/
theorem windowBaseAndOffsets : Obligations.WindowBaseAndOffsets :=
  ⟨Nat.mul_mod_right 64 Config.windowIndex, windowOffset_eq_some_iff⟩

end Sys2Proof.Machine
end

section
/-! PROOFS. The statements on the command words (30_encoding.md): which word selects which command, what an
illegal one does, and the listing triples. -/

namespace Sys2Proof.Machine

/-! The fields of a command word (R80, R82). -/

/-- A word selects a command exactly when `RSVD` is zero and `OPCODE` is the command's (R80, R82). -/
theorem decodeWord_eq_ok_iff_fields (w : Word) (i : Instr) :
    decodeWord w = .ok i ↔ w.extractLsb' 4 28 = 0#28 ∧ w.extractLsb' 0 4 = opcodeOf i := by
  have hrsvd : (CmdWord.ofWord w).reservedClear = true ↔ w.extractLsb' 4 28 = 0#28 := beq_iff_eq
  unfold decodeWord
  split
  case isTrue h => exact (decodeOpcode_eq_ok_iff _ i).trans (and_iff_right (hrsvd.1 h)).symm
  case isFalse h => exact iff_of_false nofun fun hw => h (hrsvd.2 hw.1)

/-- Settles O2: by the fields of the word, for each command with its own `OPCODE`. -/
theorem opcodeFieldSelectsTheCommand : Obligations.OpcodeFieldSelectsTheCommand := by
  intro w i
  rw [decodeWord_eq_ok_iff_fields]
  cases i <;> simp [opcodeOf]

/-! Illegal words (R84). -/

/-- The `OPCODE`s in use are 1 to 4 (R82). -/
theorem opcodeOf_range (i : Instr) : 1 ≤ (opcodeOf i).toNat ∧ (opcodeOf i).toNat ≤ 4 := by
  cases i <;> decide

/-- A word with an `OPCODE` that is not in use, or with a reserved bit set, is rejected (R84). -/
theorem decodeWord_rejects_illegal {w : Word}
    (hw : w.extractLsb' 0 4 = 0x0#4 ∨ 0x5 ≤ (w.extractLsb' 0 4).toNat ∨ w.extractLsb' 4 28 ≠ 0#28) :
    ∃ r, decodeWord w = .reject r := by
  cases hd : decodeWord w with
  | reject r => exact ⟨r, rfl⟩
  | ok i =>
    obtain ⟨hrsvd, hop⟩ := (decodeWord_eq_ok_iff_fields w i).1 hd
    obtain ⟨hpos, hle⟩ := opcodeOf_range i
    rw [hop] at hw
    rcases hw with hzero | hbig | hset
    · simp [hzero] at hpos
    · omega
    · exact absurd hrsvd hset

/-- A rejected word that the bus accepted is the command error `ILLEGAL_CMD` (R84). -/
theorem issueWord_reject {w : Word} {r : DecodeReject} (h : decodeWord w = .reject r) (s : State) :
    issueWord w s = .next { s with block := { s.block with errcode := .illegalCmd } } := by
  simp only [issueWord, h]
  rfl

/-- Settles O8: the word is issued, and the decoder rejects it before `BOUND` is looked at. -/
theorem illegalCommandWordOnlySetsErrcode : Obligations.IllegalCommandWordOnlySetsErrcode := by
  intro s k w rest hn hp hh hw
  obtain ⟨r, hr⟩ := decodeWord_rejects_illegal hw
  exact ⟨rfl, (step_issues hn hp hh).trans (issueWord_reject hr _)⟩

/-! Listings (R89). -/

/-- The access that a listing triple stands for: a read where it has no data (R89). -/
def Listing.access (t : Listing) : HostOp :=
  match t.data with
  | none => .read t.off 32
  | some d => .write t.off 32 d

/-- The triple of a line stands for the line's access (R88, R89). -/
theorem AsmLine.listing_access (l : AsmLine) : l.listing.access = l.access := by
  cases l <;> rfl

/-- A triple is marked as a write exactly when it has data (R89). -/
theorem AsmLine.listing_write (l : AsmLine) : l.listing.write = l.listing.data.isSome := by
  cases l <;> rfl

/-- Settles O60: by whether the triple has data. -/
theorem listingTriplesAreTheAccesses : Obligations.ListingTriplesAreTheAccesses := by
  refine ⟨rfl, rfl, fun l => ⟨fun h => ?_, fun d h => ?_⟩⟩
  all_goals
    rw [← l.listing_access, l.listing_write, Listing.access, h]
    exact ⟨rfl, rfl⟩

end Sys2Proof.Machine
end

section
/-! PROOFS. The statements on the datapath (40_datapath.md): the rotate right. -/

namespace Sys2Proof.Machine

/-! The rotate right (R102). -/

/-- The left shift amount of `rotr32`: the mask takes the negated amount mod 32. -/
theorem toNat_neg_and_31 (n : Word) : ((-n) &&& 31#32).toNat = (2 ^ 32 - n.toNat) % 32 := by
  rw [BitVec.toNat_and, BitVec.toNat_neg]
  calc (2 ^ 32 - n.toNat) % 2 ^ 32 &&& 2 ^ 5 - 1
      = (2 ^ 32 - n.toNat) % 2 ^ 32 % 2 ^ 5 := Nat.and_two_pow_sub_one_eq_mod _ 5
    _ = (2 ^ 32 - n.toNat) % 32 := by omega

/-- Rotating by 0 shifts by 0 both ways. -/
@[simp] theorem rotr32_zero (x : Word) : rotr32 x 0#32 = x := by
  simp [rotr32]

/-- For a nonzero amount below the width, the left shift amount is `32 - n`. -/
theorem rotr32_eq_shifts (x : Word) {n : Word} (hpos : 1 ≤ n.toNat) (hle : n.toNat ≤ 31) :
    rotr32 x n = (x >>> n.toNat) ||| (x <<< (32 - n.toNat)) := by
  have hamount : ((-n) &&& 31#32).toNat = 32 - n.toNat := by
    rw [toNat_neg_and_31]
    omega
  rw [rotr32, BitVec.ushiftRight_eq', BitVec.shiftLeft_eq', hamount]

/-- On the amounts it is defined for, `rotr32` is the library's rotate right. -/
theorem rotr32_eq_rotateRight (x : Word) {n : Word} (hle : n.toNat ≤ 31) :
    rotr32 x n = x.rotateRight n.toNat := by
  rcases Nat.eq_zero_or_pos n.toNat with hzero | hpos
  · obtain rfl : n = 0#32 := BitVec.eq_of_toNat_eq hzero
    simp [BitVec.rotateRight_def]
  · rw [rotr32_eq_shifts x hpos hle, BitVec.rotateRight_def, Nat.mod_eq_of_lt (by omega)]

/-- Bit `i` of the rotated word is bit `i + n` of `x`, counted around the word: the low `32 - n` bits come from the
right shift, the others from the left shift. -/
theorem getLsbD_rotr32 (x : Word) {n : Word} (hle : n.toNat ≤ 31) {i : Nat} (hi : i < 32) :
    (rotr32 x n).getLsbD i = x.getLsbD ((i + n.toNat) % 32) := by
  rw [rotr32_eq_rotateRight x hle, BitVec.getLsbD_rotateRight_of_lt (by omega)]
  by_cases hlow : i < 32 - n.toNat
  · have hindex : (i + n.toNat) % 32 = n.toNat + i := by omega
    simp [hlow, hindex]
  · have hindex : (i + n.toNat) % 32 = i - (32 - n.toNat) := by omega
    simp [hlow, hi, hindex]

/-- Settles O17: bit by bit through the library's rotate right, and by the left shift amount. -/
theorem rotateRightMovesEveryBit : Obligations.RotateRightMovesEveryBit := by
  intro x n hle
  exact ⟨fun i hi => getLsbD_rotr32 x hle hi, fun hzero => hzero ▸ rotr32_zero x,
    fun hpos => rotr32_eq_shifts x hpos hle⟩

end Sys2Proof.Machine
end

section
/-! PROOFS. The statements on `SEED` and `LOADST` (41_seed_load.md): the engine transition of `LOADST`. -/

namespace Sys2Proof.Machine

/-- `ACC` and the stored field of `INC` come from the operands, unstepped, and the command completes (R126). -/
theorem Block.loadTransition_eq (b : Block) :
    b.loadTransition = { b with acc := b.arg0, incTop := b.arg1.extractLsb' 1 63, phase := .idle } := rfl

/-- The loaded `INC` is `ARG1` with bit 0 forced to 1, so an even `ARG1` is accepted too (R128). -/
@[simp] theorem Block.loadTransition_inc (b : Block) : b.loadTransition.inc = b.arg1 ||| 1#64 :=
  b.inc_setInc b.arg1

/-- Settles O14: a busy `LOADST` runs its one engine transition, which is the two loads and the completion. -/
theorem loadstInstallsTheGivenState : Obligations.LoadstInstallsTheGivenState := by
  intro s hbusy hop
  refine ⟨_, exec_busy .loadst s hbusy hop, ?block, s.block.loadTransition_inc⟩
  case block => rw [Block.transitionOf, Block.loadTransition_eq]

end Sys2Proof.Machine
end

section
/-! PROOFS. The statements on `STEP` (42_step.md): its engine transition, with the output permutation written out. -/

namespace Sys2Proof.Machine

/-- As a number, the rotation amount is the 64-bit shift: cutting it to 32 bits loses nothing (R103). -/
theorem rot_toNat_eq_shift (old : DWord) : (rot old).toNat = (old >>> 59).toNat := by
  rw [rot_toNat, BitVec.toNat_ushiftRight, Nat.shiftRight_eq_div_pow]

/-- XSH-RR as the library's rotate right; `rot` is always an amount on which `rotr32` is one (R104). -/
theorem output_eq_rotateRight (old : DWord) :
    output old = ((((old >>> 18) ^^^ old) >>> 27).setWidth 32).rotateRight (old >>> 59).toNat := by
  rw [output, rotr32_eq_rotateRight _ (rot_le old), rot_toNat_eq_shift, xorshifted, trunc32]

/-- `ACC` advances, `RESULT` is the output of the state before the advance, and the command completes (R141). -/
theorem Block.stepTransition_eq (b : Block) :
    b.stepTransition = { b with acc := lcgNext b.acc b.inc, result := output b.acc, phase := .idle } := rfl

/-- Settles O15: a busy `STEP` runs its one engine transition, whose output is the rotated xorshift of the old `ACC`. -/
theorem stepReturnsXshRrOfTheOldState : Obligations.StepReturnsXshRrOfTheOldState := by
  intro s hbusy hop
  rw [exec_busy .step s hbusy hop, Block.transitionOf, Block.stepTransition_eq, lcgNext, mul64,
    output_eq_rotateRight]

end Sys2Proof.Machine
end

section
/-! PROOFS. The statements on `BOUNDED` (43_bounded.md): its start, the refusal of a zero bound, and one draw. -/

namespace Sys2Proof.Machine

/-- A command word that the bus accepted runs its command (30_encoding.md R86). -/
theorem issueWord_encode (i : Instr) (s : State) : issueWord (encode i) s = exec i s := by
  simp only [issueWord, (decodeWord_eq_ok_iff _ i).2 rfl]

/-- Settles O10: a nonzero bound takes the start's branch that computes `THRESH`, and a draw keeps it. -/
theorem boundedStartComputesTheThresholdOnce : Obligations.BoundedStartComputesTheThresholdOnce := by
  refine ⟨fun s hidle hbound => ?start, fun s hbusy hop => ?draw⟩
  case start => rw [exec_idle .bounded s hidle, Block.startOf, s.block.boundedStart_nonzero hbound, threshold]
  case draw => exact ⟨_, exec_busy .bounded s hbusy hop, s.block.drawTransition_thresh⟩

/-- A draw of at least `THRESH` is reduced into `RESULT` and completes the command (R153). -/
theorem exec_bounded_accepts {s : State} (hbusy : s.block.phase = .busy) (hop : s.block.op = .bounded)
    (hr : s.block.thresh.toNat ≤ (output s.block.acc).toNat) :
    exec .bounded s = .next { s with block := { s.block with
      acc := lcgNext s.block.acc s.block.inc, result := output s.block.acc % s.block.bound, phase := .idle } } := by
  rw [exec_busy .bounded s hbusy hop, Block.transitionOf, s.block.drawTransition_accept hr, reduce]

/-- A draw below `THRESH` only advances `ACC` (R153). -/
theorem exec_bounded_discards {s : State} (hbusy : s.block.phase = .busy) (hop : s.block.op = .bounded)
    (hr : (output s.block.acc).toNat < s.block.thresh.toNat) :
    exec .bounded s = .next { s with block := { s.block with acc := lcgNext s.block.acc s.block.inc } } := by
  rw [exec_busy .bounded s hbusy hop, Block.transitionOf, s.block.drawTransition_reject (Nat.not_le.2 hr)]

/-- Settles O18: `STEP` answers the advanced `ACC` and the output, which are the draw's own in both of its cases. -/
theorem boundedDrawAcceptsOrDiscards : Obligations.BoundedDrawAcceptsOrDiscards := by
  intro s hbusy hop _
  exact ⟨_, exec_busy .step _ hbusy rfl, Block.stepTransition_acc _, Block.stepTransition_result _,
    exec_bounded_accepts hbusy hop, exec_bounded_discards hbusy hop⟩

/-- Settles O11: the word is issued as `BOUNDED`, whose start is refused. -/
theorem boundedWithZeroBoundIsRefused : Obligations.BoundedWithZeroBoundIsRefused := by
  intro s k rest hturn hidle hpending hzero
  have hrefused : Block.startOf .bounded s.block = { s.block with errcode := .boundZero } :=
    s.block.boundedStart_zero hzero
  refine ⟨rfl, ?_⟩
  calc step s
      = issueWord (encode .bounded) (s.answered k rest .written) := step_issues hturn hidle hpending
    _ = exec .bounded (s.answered k rest .written) := issueWord_encode .bounded _
    _ = .next { s.answered k rest .written with block := Block.startOf .bounded s.block } :=
        exec_idle .bounded _ hidle
    _ = .next { s.answered k rest .written with block := { s.block with errcode := .boundZero } } := by
        rw [hrefused]

end Sys2Proof.Machine
end

section
/-! PROOFS. The statements on exceptions (60_exceptions.md): the bus error that an access is answered with, and
what an access that none applies to does. -/

namespace Sys2Proof.Machine

/-! The registers by the offsets at which they stand (10_state.md R27). -/

/-- A word offset below the reserved ones is that of a register (R27, R52). -/
theorem Reg.exists_offset_of_aligned {off : Fin 64} (ha : off.val % 4 = 0) (hlt : off.val < 0x30) :
    ∃ r : Reg, off = r.offset := by
  cases h : Reg.ofOffset off with
  | none =>
    have := (Reg.ofOffset_eq_none off).1 h
    omega
  | some r => exact ⟨r, (Reg.ofOffset_eq_some off r).1 h⟩

/-- The offsets of the read-only registers (R27, 60_exceptions.md R204). -/
theorem Reg.readOnly_of_offset_mem {off : Fin 64}
    (h : off ∈ ([0x04, 0x08, 0x20, 0x24, 0x28, 0x2C] : List (Fin 64))) :
    ∃ r : Reg, off = r.offset ∧ r.readOnly = true := by
  have hmap : off ∈ [Reg.status, .result, .accLo, .accHi, .incLo, .incHi].map Reg.offset := h
  obtain ⟨r, hr, rfl⟩ := List.mem_map.1 hmap
  have hall : ∀ r ∈ [Reg.status, .result, .accLo, .accHi, .incLo, .incHi], r.readOnly = true := by decide
  exact ⟨r, rfl, hall r hr⟩

/-- The offsets of the operand registers (R27, R28, R29). -/
theorem Reg.operand_of_offset_mem {off : Fin 64} (h : off ∈ ([0x0C, 0x10, 0x14, 0x18, 0x1C] : List (Fin 64))) :
    ∃ r : Reg, off = r.offset ∧ r.readOnly = false ∧ r ≠ .cmd := by
  have hmap : off ∈ [Reg.bound, .arg0Lo, .arg0Hi, .arg1Lo, .arg1Hi].map Reg.offset := h
  obtain ⟨r, hr, rfl⟩ := List.mem_map.1 hmap
  have hall : ∀ r ∈ [Reg.bound, .arg0Lo, .arg0Hi, .arg1Lo, .arg1Hi], r.readOnly = false ∧ r ≠ .cmd := by
    decide
  exact ⟨r, rfl, hall r hr⟩

/-- The offsets of the writable registers: `CMD` and the operand registers (R27). -/
theorem Reg.writable_of_offset_mem {off : Fin 64}
    (h : off ∈ ([0x00, 0x0C, 0x10, 0x14, 0x18, 0x1C] : List (Fin 64))) :
    ∃ r : Reg, off = r.offset ∧ r.readOnly = false := by
  rcases List.mem_cons.1 h with hcmd | hoperand
  · exact ⟨.cmd, hcmd, rfl⟩
  · obtain ⟨r, hoff, hr, -⟩ := Reg.operand_of_offset_mem hoperand
    exact ⟨r, hoff, hr⟩

/-! Refused and accepted accesses as steps (60_exceptions.md R206, R207). -/

section
variable {s : State} {k : Nat} {off : Fin 64} {n : Nat} {rest : List HostOp} {c : Fault}

/-- A read that a check refuses is answered with the cause, and nothing else happens (R206). -/
theorem step_read_refused (hn : s.nextTurn = .host k) (hh : (s.master k).pending = .read off n :: rest)
    (hc : busCheck false off n s.block.phase = some c) :
    step s = .next (s.answered k rest (.busError c)) := by
  rw [step_performs hn hh, perform, State.busRead_refused (s.dropTurn.setPending k rest) k off n c hc,
    State.respond_taken]

/-- A write that a check refuses is answered with the cause, and nothing else happens (R206). -/
theorem step_write_refused {v : Word} (hn : s.nextTurn = .host k)
    (hh : (s.master k).pending = .write off n v :: rest) (hc : busCheck true off n s.block.phase = some c) :
    step s = .next (s.answered k rest (.busError c)) := by
  rw [step_performs hn hh, perform, busWrite_refused k off n v (s.dropTurn.setPending k rest) c hc,
    State.respond_taken]

/-- A check that refuses reads and writes alike answers an access of either kind. -/
theorem step_access_refused {a : HostOp} (hn : s.nextTurn = .host k) (hh : (s.master k).pending = a :: rest)
    (ha : a = .read off n ∨ ∃ v, a = .write off n v)
    (hc : ∀ write, busCheck write off n s.block.phase = some c) :
    step s = .next (s.answered k rest (.busError c)) := by
  rcases ha with rfl | ⟨v, rfl⟩
  · exact step_read_refused hn hh (hc false)
  · exact step_write_refused hn hh (hc true)

/-- An accepted read is answered with data, and changes nothing else but the count of free values (20_memory.md
R61, R63). -/
theorem step_read_register {r : Reg} (hn : s.nextTurn = .host k)
    (hh : (s.master k).pending = .read r.offset 32 :: rest) :
    ∃ v d, step s = .next { s.answered k rest (.data v) with draws := d } := by
  obtain ⟨v, d, hdeliver, -⟩ := (s.dropTurn.setPending k rest).deliver_spec k r
  refine ⟨v, d, ?_⟩
  rw [step_performs hn hh, perform, State.busRead_register, hdeliver, State.respond_taken]

end

/-- Settles O41: the first three checks refuse reads and writes alike, the two after them writes of a register by
its kind and the phase; an access that none refuses is a write of `CMD`, a write of an operand or a read. -/
theorem busErrorIsTheFirstThatApplies : Obligations.BusErrorIsTheFirstThatApplies := by
  intro s k a rest off n hn hh ha
  refine ⟨?misaligned, ?badWidth, ?unmapped, ?readOnly, ?busy, ?command, ?operand, ?read⟩
  case misaligned =>
    intro hmis
    exact step_access_refused hn hh ha fun w => busCheck_misaligned w off n _ hmis
  case badWidth =>
    intro hal hwidth
    exact step_access_refused hn hh ha fun w => busCheck_badWidth w off n _ hal hwidth
  case unmapped =>
    rintro hal rfl hres
    exact step_access_refused hn hh ha fun w => busCheck_unmapped w off _ hal hres
  case readOnly =>
    rintro rfl ⟨v, rfl⟩ hoff
    obtain ⟨r, rfl, hr⟩ := Reg.readOnly_of_offset_mem hoff
    exact step_write_refused hn hh (by simp [busCheck_register, hr])
  case busy =>
    rintro rfl ⟨v, rfl⟩ hoff hp
    obtain ⟨r, rfl, hr⟩ := Reg.writable_of_offset_mem hoff
    exact step_write_refused hn hh (by simp [busCheck_register, hr, hp])
  case command =>
    rintro v rfl rfl rfl hp
    exact step_issues hn hp hh
  case operand =>
    rintro rfl ⟨v, rfl⟩ hoff hp
    obtain ⟨r, rfl, hr, hcmd⟩ := Reg.operand_of_offset_mem hoff
    exact ⟨_, step_writes hn hp hh hr hcmd⟩
  case read =>
    rintro hal rfl hlt rfl
    obtain ⟨r, rfl⟩ := Reg.exists_offset_of_aligned hal hlt
    exact step_read_register hn hh

end Sys2Proof.Machine
end

section
/-! SUPPORT. The values that reset gives the registers (70_reset_and_hazards.md R230), and that it does so in
either phase (R231). -/

namespace Sys2Proof.Machine

/-- The upper 63 bits of `INC_RESET` are stored, and its bit 0 is the hardwired 1 (R13, R22). -/
@[simp] theorem Block.reset_inc : Block.reset.inc = Config.incReset := by decide

/-- An idle block whose last command write was accepted reads 0 in `STATUS` (R30). -/
theorem Block.status_eq_zero {b : Block} (hp : b.phase = .idle) (he : b.errcode = .ok) : b.status = 0#32 := by
  simp [Block.status, hp, he, Phase.busyBit, ErrCode.code]

/-- Settles O49: `INC` and `STATUS` are put together from fields, and every other register is a field of its own. -/
theorem resetLeavesTheSpecifiedValues : Obligations.ResetLeavesTheSpecifiedValues :=
  ⟨rfl, Block.reset_inc, rfl, rfl, rfl, rfl, rfl, rfl, Block.status_eq_zero rfl rfl⟩

/-- Settles O50: a reset turn replaces the block by the reset block, whatever the old block was doing. -/
theorem resetAbandonsTheCommandInProgress : Obligations.ResetAbandonsTheCommandInProgress := by
  intro s hn
  exact ⟨_, step_resets hn, rfl, Block.reset_inc, rfl, rfl, rfl, rfl, rfl, rfl⟩

end Sys2Proof.Machine
end

section
/-! PROOFS. The statements on the bytes of a command and on the words that select none (30_encoding.md). -/

namespace Sys2Proof.Machine

/-! The byte lanes of a word (20_memory.md R57). -/

/-- The lanes of a word put together again are the word. -/
@[simp] theorem wordOfLanes_laneOf (w : Word) :
    wordOfLanes (laneOf w 0) (laneOf w 1) (laneOf w 2) (laneOf w 3) = w := by
  apply BitVec.eq_of_getLsbD_eq
  intro i hi
  simp only [wordOfLanes, laneOf, BitVec.getLsbD_append, BitVec.getLsbD_extractLsb']
  grind

/-- Lane `k` of a word put together from lanes is the `k`-th of them. -/
theorem laneOf_wordOfLanes (b0 b1 b2 b3 : Byte) :
    laneOf (wordOfLanes b0 b1 b2 b3) 0 = b0 ∧ laneOf (wordOfLanes b0 b1 b2 b3) 1 = b1 ∧
    laneOf (wordOfLanes b0 b1 b2 b3) 2 = b2 ∧ laneOf (wordOfLanes b0 b1 b2 b3) 3 = b3 := by
  refine ⟨?_, ?_, ?_, ?_⟩
  all_goals
    apply BitVec.eq_of_getLsbD_eq
    intro i hi
    simp only [wordOfLanes, laneOf, BitVec.getLsbD_append, BitVec.getLsbD_extractLsb']
    grind

/-- A word is given by its four lanes. -/
theorem wordOfLanes_eq_iff (b0 b1 b2 b3 : Byte) (w : Word) :
    wordOfLanes b0 b1 b2 b3 = w ↔ [b0, b1, b2, b3] = [laneOf w 0, laneOf w 1, laneOf w 2, laneOf w 3] := by
  constructor
  · rintro rfl
    obtain ⟨h0, h1, h2, h3⟩ := laneOf_wordOfLanes b0 b1 b2 b3
    rw [h0, h1, h2, h3]
  · intro h
    simp only [List.cons.injEq, and_true] at h
    obtain ⟨rfl, rfl, rfl, rfl⟩ := h
    exact wordOfLanes_laneOf w

/-- Four bytes and more decode as the word of the four, and the rest is left over (R87). -/
theorem decodeBytes_eq_ok_iff (b0 b1 b2 b3 : Byte) (bytes : List Byte) (i : Instr) (rest : List Byte) :
    decodeBytes (b0 :: b1 :: b2 :: b3 :: bytes) = .ok (i, rest) ↔
      decodeWord (wordOfLanes b0 b1 b2 b3) = .ok i ∧ bytes = rest := by
  cases hd : decodeWord (wordOfLanes b0 b1 b2 b3) <;> simp [decodeBytes, hd]

/-- Settles O1: bytes decode as a word, a word decodes to the command whose encoding it is, and a word is its
lanes; fewer than four bytes are neither decoded nor an encoding. -/
theorem decodingAnswersExactlyTheEncodedCommands : Obligations.DecodingAnswersExactlyTheEncodedCommands := by
  intro bytes i rest
  match bytes with
  | b0 :: b1 :: b2 :: b3 :: bytes =>
    calc decodeBytes (b0 :: b1 :: b2 :: b3 :: bytes) = .ok (i, rest)
        ↔ decodeWord (wordOfLanes b0 b1 b2 b3) = .ok i ∧ bytes = rest := decodeBytes_eq_ok_iff ..
      _ ↔ [b0, b1, b2, b3] = encodeBytes i ∧ bytes = rest := by
          rw [decodeWord_eq_ok_iff, wordOfLanes_eq_iff, encodeBytes]
      _ ↔ [b0, b1, b2, b3] ++ bytes = encodeBytes i ++ rest :=
          ⟨fun ⟨hbytes, hrest⟩ => by rw [hbytes, hrest], (List.append_inj · rfl)⟩
  | [] | [_] | [_, _] | [_, _, _] => exact iff_of_false nofun nofun

/-! Words that select no command (R82, R84). -/

/-- `RSVD` is zero exactly in the words below 16 (R80). -/
theorem reservedClear_ofWord (w : Word) : (CmdWord.ofWord w).reservedClear = decide (w.toNat < 16) := by
  have := w.isLt
  rw [CmdWord.reservedClear, Bool.eq_iff_iff, beq_iff_eq, decide_eq_true_iff, ← BitVec.toNat_inj]
  simp [CmdWord.ofWord, Nat.shiftRight_eq_div_pow]
  omega

/-- `OPCODE` is the word mod 16 (R80). -/
theorem opcode_ofWord_toNat (w : Word) : (CmdWord.ofWord w).opcode.toNat = w.toNat % 16 := by
  simp [CmdWord.ofWord]

/-- An `OPCODE` that no command has is rejected as reserved (R82). -/
theorem decodeOpcode_reserved {op : BitVec 4} (h : op.toNat = 0 ∨ 5 ≤ op.toNat) :
    decodeOpcode op = .reject .reservedOpcode := by
  revert op
  decide

/-- Settles O3: the four words are the encodings; a word of 16 or more has a reserved bit, and a smaller one is
its own `OPCODE`. -/
theorem otherWordsAreRejectedByName : Obligations.OtherWordsAreRejectedByName := by
  intro w
  refine ⟨?selected, fun hbig => ?reservedBits, fun hsmall => ?reservedOpcode⟩
  case selected =>
    simp only [decodeWord_eq_ok_iff]
    constructor
    · rintro ⟨i, rfl⟩
      cases i <;> decide
    · rintro (rfl | rfl | rfl | rfl)
      exacts [⟨.seed, rfl⟩, ⟨.step, rfl⟩, ⟨.bounded, rfl⟩, ⟨.loadst, rfl⟩]
  case reservedBits => simp [decodeWord, reservedClear_ofWord, Nat.not_lt.2 hbig]
  case reservedOpcode =>
    have hlt : w.toNat < 16 := by omega
    have hop : decodeOpcode (CmdWord.ofWord w).opcode = .reject .reservedOpcode :=
      decodeOpcode_reserved (by rw [opcode_ofWord_toNat]; omega)
    simp [decodeWord, reservedClear_ofWord, hlt, hop]

/-- Settles O4: each word is evaluated. -/
theorem tableWordsDecodeToTheirCommands : Obligations.TableWordsDecodeToTheirCommands := by
  unfold Obligations.TableWordsDecodeToTheirCommands
  decide

end Sys2Proof.Machine
end

section
/-! SUPPORT. What a start and an engine transition leave unchanged, register by register. -/

namespace Sys2Proof.Machine

/-- A start leaves the generator state, `RESULT` and the operands (30_encoding.md R86, 43_bounded.md R151, R152). -/
theorem Block.startOf_frame (i : Instr) (b : Block) :
    (Block.startOf i b).acc = b.acc ∧ (Block.startOf i b).incTop = b.incTop ∧
    (Block.startOf i b).result = b.result ∧ (Block.startOf i b).bound = b.bound ∧
    (Block.startOf i b).arg0 = b.arg0 ∧ (Block.startOf i b).arg1 = b.arg1 := by
  cases i with
  | bounded => exact b.boundedStart_frame
  | seed | step | loadst => simp [Block.startOf]

/-- Only `BOUNDED` has more to its start than the other commands (R86, R152). -/
theorem Block.startOf_of_ne_bounded {i : Instr} (hi : i ≠ .bounded) (b : Block) :
    Block.startOf i b = b.start i := by
  cases i with
  | bounded => exact absurd rfl hi
  | seed | step | loadst => rfl

/-! An engine transition leaves the operands, `OP` and `THRESH` (10_state.md R28, R29, R34, R35). -/

@[simp] theorem Block.transitionOf_bound (i : Instr) (b : Block) : (Block.transitionOf i b).bound = b.bound := by
  cases i <;> simp [Block.transitionOf]

@[simp] theorem Block.transitionOf_arg0 (i : Instr) (b : Block) : (Block.transitionOf i b).arg0 = b.arg0 := by
  cases i <;> simp [Block.transitionOf]

@[simp] theorem Block.transitionOf_arg1 (i : Instr) (b : Block) : (Block.transitionOf i b).arg1 = b.arg1 := by
  cases i <;> simp [Block.transitionOf]

@[simp] theorem Block.transitionOf_op (i : Instr) (b : Block) : (Block.transitionOf i b).op = b.op := by
  cases i <;> simp [Block.transitionOf]

@[simp] theorem Block.transitionOf_thresh (i : Instr) (b : Block) :
    (Block.transitionOf i b).thresh = b.thresh := by
  cases i <;> simp [Block.transitionOf]

/-- Only `SEED` and `LOADST` write `INC` (10_state.md R24). -/
theorem Block.transitionOf_incTop {i : Instr} (hi : i = .step ∨ i = .bounded) (b : Block) :
    (Block.transitionOf i b).incTop = b.incTop := by
  rcases hi with rfl | rfl <;> simp [Block.transitionOf]

/-- Only `STEP` and `BOUNDED` write `RESULT` (10_state.md R37). -/
theorem Block.transitionOf_result {i : Instr} (hi : i = .seed ∨ i = .loadst) (b : Block) :
    (Block.transitionOf i b).result = b.result := by
  rcases hi with rfl | rfl <;> simp [Block.transitionOf]

/-- Every transition but a rejected draw completes its command; a rejected draw leaves `RESULT` (R153). -/
theorem Block.transitionOf_completes_or (i : Instr) (b : Block) :
    (Block.transitionOf i b).phase = .idle ∨ i = .bounded ∧
      Block.transitionOf i b = { b with acc := lcgNext b.acc b.inc } := by
  cases i with
  | seed | step | loadst => exact .inl rfl
  | bounded =>
    by_cases h : b.thresh.toNat ≤ (output b.acc).toNat
    · exact .inl (by rw [Block.transitionOf, b.drawTransition_accept h])
    · exact .inr ⟨rfl, b.drawTransition_reject h⟩

/-- So the other commands complete at their first transition (70_reset_and_hazards.md R236). -/
theorem Block.transitionOf_phase_of_ne_bounded {i : Instr} (hi : i ≠ .bounded) (b : Block) :
    (Block.transitionOf i b).phase = .idle :=
  (Block.transitionOf_completes_or i b).resolve_right fun ⟨hbounded, _⟩ => hi hbounded

/-- A transition that changed `INC` is that of `SEED` or `LOADST` (10_state.md R24). -/
theorem Block.transitionOf_changes_incTop {i : Instr} {b : Block}
    (h : (Block.transitionOf i b).incTop ≠ b.incTop) : i = .seed ∨ i = .loadst := by
  cases i with
  | seed => exact .inl rfl
  | loadst => exact .inr rfl
  | step => exact absurd (Block.transitionOf_incTop (.inl rfl) b) h
  | bounded => exact absurd (Block.transitionOf_incTop (.inr rfl) b) h

/-- A transition that changed `RESULT` is the one that completes `STEP` or `BOUNDED` (10_state.md R37). -/
theorem Block.transitionOf_changes_result {i : Instr} {b : Block}
    (h : (Block.transitionOf i b).result ≠ b.result) :
    (i = .step ∨ i = .bounded) ∧ (Block.transitionOf i b).phase = .idle := by
  rcases Block.transitionOf_completes_or i b with hidle | ⟨-, hrejected⟩
  · refine ⟨?_, hidle⟩
    cases i with
    | step => exact .inl rfl
    | bounded => exact .inr rfl
    | seed => exact absurd (Block.transitionOf_result (.inl rfl) b) h
    | loadst => exact absurd (Block.transitionOf_result (.inr rfl) b) h
  · rw [hrejected] at h
    exact absurd rfl h

/-- What `exec` can do to the block: the start in an idle state, the transition in a busy state whose `OP` it is, and
nothing otherwise. -/
theorem exec_block_cases {i : Instr} {s t : State} (h : exec i s = .next t) :
    (s.block.phase = .idle ∧ t.block = Block.startOf i s.block) ∨
    (s.block.phase = .busy ∧ s.block.op = i ∧ t.block = Block.transitionOf i s.block) ∨
    (s.block.phase = .busy ∧ s.block.op ≠ i ∧ t.block = s.block) := by
  cases hp : s.block.phase with
  | idle =>
    rw [exec_idle i s hp] at h
    cases h
    exact .inl ⟨rfl, rfl⟩
  | busy =>
    by_cases hop : s.block.op = i
    · rw [exec_busy i s hp hop] at h
      cases h
      exact .inr (.inl ⟨rfl, hop, rfl⟩)
    · rw [exec_other i s hp hop] at h
      cases h
      exact .inr (.inr ⟨rfl, hop, rfl⟩)

end Sys2Proof.Machine
end

section
/-! PROOFS. The invariant of a command in progress, and what every step keeps and answers. -/

namespace Sys2Proof.Machine

/-! The invariant (10_state.md R31, R35). -/

/-- The invariant says nothing of an idle block. -/
theorem Block.inv_of_idle {b : Block} (h : b.phase = .idle) : b.Inv := by
  simp [Block.Inv, h]

/-- A start of an idle block meets the invariant: refused, the block is idle still; otherwise `ERRCODE` is `OK`, and
`BOUNDED` has computed the threshold of its nonzero bound. -/
theorem Block.inv_startOf {b : Block} (hp : b.phase = .idle) (i : Instr) : (Block.startOf i b).Inv := by
  rcases Block.startOf_cases i b with ⟨-, -, hrefused⟩ | ⟨hbound, herr, -, hop⟩
  · rw [hrefused]
    exact Block.inv_of_idle hp
  · refine ⟨fun _ => herr, fun _ hbounded => ?_⟩
    obtain rfl : i = .bounded := hop.symm.trans hbounded
    rw [Block.startOf, b.boundedStart_nonzero (hbound rfl)]
    exact ⟨hbound rfl, rfl⟩

/-- A transition of the command in progress keeps the invariant, since it writes none of its registers. -/
theorem Block.inv_transitionOf {b : Block} (hp : b.phase = .busy) (hb : b.Inv) (i : Instr) :
    (Block.transitionOf i b).Inv := by
  obtain ⟨herr, hbounded⟩ := hb
  simp only [Block.Inv, Block.transitionOf_errcode, Block.transitionOf_op, Block.transitionOf_bound,
    Block.transitionOf_thresh]
  exact ⟨fun _ => herr hp, fun _ => hbounded hp⟩

/-- Settles O33: the reset block is idle. -/
theorem resetStateMeetsTheInvariant : Obligations.ResetStateMeetsTheInvariant :=
  Block.inv_of_idle rfl

/-- Settles O34: by what one step can do to the block. -/
theorem everyStepKeepsTheInvariant : Obligations.EveryStepKeepsTheInvariant := by
  intro s t hinv h
  rcases step_block_cases h with ⟨-, hb⟩ | ⟨-, hp, hb⟩ | ⟨k, w, rest, -, hp, -, hcmd⟩ |
    ⟨k, r, w, rest, -, hp, -, -, -, hb⟩ | hb
  · rw [hb]
    exact Block.inv_of_idle rfl
  · rw [hb]
    exact Block.inv_transitionOf hp hinv _
  · rcases hcmd with ⟨i, -, hb⟩ | ⟨r, -, hb⟩
    · rw [hb]
      exact Block.inv_startOf hp i
    · rw [hb]
      exact Block.inv_of_idle hp
  · obtain ⟨-, -, -, -, hphase, -⟩ := s.block.writeReg_frame r w
    rw [hb]
    exact Block.inv_of_idle (hphase.trans hp)
  · rwa [hb]

/-! Every step answers a next state (60_exceptions.md R206, R210, R211). -/

/-- An accepted command word is executed or is a command error. -/
theorem issueWord_next (w : Word) (s : State) : ∃ t, issueWord w s = .next t := by
  cases hd : decodeWord w with
  | ok i => exact ⟨_, by rw [(decodeWord_eq_ok_iff w i).1 hd, issueWord_encode, exec_eq]⟩
  | reject r => exact ⟨_, issueWord_reject hd s⟩

/-- An access is always answered. -/
theorem perform_next (k : Nat) (a : HostOp) (s : State) : ∃ t, perform k a s = .next t := by
  cases a with
  | read off n => exact ⟨_, rfl⟩
  | poll => exact ⟨_, rfl⟩
  | failIfBoundZero n => exact ⟨_, rfl⟩
  | write off n v =>
    rw [perform]
    rcases busWrite_cases k off n v s with ⟨c, -, e⟩ | ⟨-, -, -, e⟩ | ⟨-, -, r, -, -, -, e⟩
    · exact ⟨_, e⟩
    · rw [e]
      exact issueWord_next v _
    · exact ⟨_, e⟩

/-- With no access pending, a host's turn is only taken off (R223). -/
theorem step_host_silent {s : State} {k : Nat} (hn : s.nextTurn = .host k) (hh : (s.master k).pending = []) :
    step s = .next s.dropTurn := by
  have e : (s.dropTurn.master k).pending = [] := hh
  simp only [step, hn, takeTurn, hostTurn, e]

/-- An idle engine's turn is only taken off (R223, log entry 9). -/
theorem step_engine_idle {s : State} (hn : s.nextTurn = .engine) (hp : s.block.phase = .idle) :
    step s = .next s.dropTurn := by
  simp only [step, hn, takeTurn, engineTurn, State.dropTurn_block, hp]

/-- Settles O35: by whose turn it is. -/
theorem everyStepAnswersANextState : Obligations.EveryStepAnswersANextState := by
  intro s
  cases hn : s.nextTurn with
  | reset => exact ⟨_, step_resets hn⟩
  | engine =>
    cases hp : s.block.phase with
    | idle => exact ⟨_, step_engine_idle hn hp⟩
    | busy => exact ⟨_, step_transition hn hp⟩
  | host k =>
    cases hh : (s.master k).pending with
    | nil => exact ⟨_, step_host_silent hn hh⟩
    | cons a rest =>
      rw [step_performs hn hh]
      exact perform_next k a _

/-- Settles O40: a turn with nothing to do is only taken off. -/
theorem idleBlockKeepsAllItsState : Obligations.IdleBlockKeepsAllItsState := by
  rintro s hp (hn | ⟨k, hn, hh⟩)
  · exact step_engine_idle hn hp
  · exact step_host_silent hn hh

/-! Who writes what (10_state.md R24, R28, R29, R31, R34, R35, R37). -/

/-- A register that an operand write changed is the one that was written (20_memory.md R64). -/
theorem Block.writeReg_changes (b : Block) (r : Reg) (v : Word) :
    ((b.writeReg r v).bound ≠ b.bound → r = .bound) ∧
    ((b.writeReg r v).arg0 ≠ b.arg0 → r = .arg0Lo ∨ r = .arg0Hi) ∧
    ((b.writeReg r v).arg1 ≠ b.arg1 → r = .arg1Lo ∨ r = .arg1Hi) := by
  cases r <;> simp [Block.writeReg]

/-- A command write, whether it starts a command or is an error, leaves the generator state, `RESULT` and the
operands. -/
theorem command_write_frame {w : Word} {b c : Block}
    (h : (∃ i, decodeWord w = .ok i ∧ c = Block.startOf i b) ∨
      ∃ r, decodeWord w = .reject r ∧ c = { b with errcode := .illegalCmd }) :
    c.acc = b.acc ∧ c.incTop = b.incTop ∧ c.result = b.result ∧ c.bound = b.bound ∧ c.arg0 = b.arg0 ∧
      c.arg1 = b.arg1 := by
  rcases h with ⟨i, -, rfl⟩ | ⟨r, -, rfl⟩
  · exact Block.startOf_frame i b
  · simp

/-- Settles O36: by what one step can do to the block; in each case the registers that the frame of the event
covers have not changed. -/
theorem onlyTheNamedEventsWriteEachRegister : Obligations.OnlyTheNamedEventsWriteEachRegister := by
  intro s t h hreset
  simp only [ne_eq, Block.inc_inj]
  rcases step_block_cases h with ⟨hn, -⟩ | ⟨hn, hp, hb⟩ | ⟨k, w, rest, hn, hp, hh, hcmd⟩ |
    ⟨k, r, w, rest, hn, hp, hh, -, -, hb⟩ | hb
  · exact absurd hn hreset
  · rw [hb]
    exact ⟨fun _ => ⟨hn, hp⟩, fun hinc => ⟨hn, hp, Block.transitionOf_changes_incTop hinc⟩,
      fun hresult => ⟨hn, hp, Block.transitionOf_changes_result hresult⟩, by simp, by simp, by simp, by simp⟩
  · obtain ⟨hacc, hinc, hresult, hbound, harg0, harg1⟩ := command_write_frame hcmd
    exact ⟨absurd hacc, absurd hinc, absurd hresult, fun _ => ⟨hp, k, w, rest, hn, hh⟩, absurd hbound,
      absurd harg0, absurd harg1⟩
  · obtain ⟨hacc, hinc, hresult, herr, -, hop, hthresh⟩ := s.block.writeReg_frame r w
    obtain ⟨hbound, harg0, harg1⟩ := s.block.writeReg_changes r w
    rw [hb]
    refine ⟨absurd hacc, absurd hinc, absurd hresult, by simp [herr, hop, hthresh],
      fun hne => ⟨hp, k, rest, hn, ?bound⟩, fun hne => ⟨hp, k, w, rest, hn, ?arg0⟩,
      fun hne => ⟨hp, k, w, rest, hn, ?arg1⟩⟩
    case bound =>
      obtain rfl := hbound hne
      exact hh
    case arg0 => exact (harg0 hne).imp (fun hr => by rw [hh, hr]; rfl) (fun hr => by rw [hh, hr]; rfl)
    case arg1 => exact (harg1 hne).imp (fun hr => by rw [hh, hr]; rfl) (fun hr => by rw [hh, hr]; rfl)
  · simp [hb]

/-- Settles O38: of the events that change the block, a host's turn is only the accepted writes, which are writes
and find the block idle. -/
theorem readsAndBusyAccessesLeaveTheBlock : Obligations.ReadsAndBusyAccessesLeaveTheBlock := by
  intro s t k hn h hleaves
  have no_write {j : Nat} {off : Fin 64} {w : Word} {rest : List HostOp} (hj : s.nextTurn = .host j)
      (hp : s.block.phase = .idle) (hh : (s.master j).pending = .write off 32 w :: rest) :
      t.block = s.block := by
    obtain rfl : k = j := Turn.host.inj (hn.symm.trans hj)
    rcases hleaves with hbusy | hread
    · rw [hp] at hbusy
      cases hbusy
    · exact absurd hh (hread off 32 w rest)
  rcases step_block_cases h with ⟨hr, -⟩ | ⟨he, -⟩ | ⟨j, w, rest, hj, hp, hh, -⟩ |
    ⟨j, r, w, rest, hj, hp, hh, -⟩ | hb
  · exact absurd (hn.symm.trans hr) nofun
  · exact absurd (hn.symm.trans he) nofun
  · exact no_write hj hp hh
  · exact no_write hj hp hh
  · exact hb

/-! Reset and `STATUS`. -/

/-- Settles O51: a reset turn replaces the block only. -/
theorem resetLeavesTheHostsSide : Obligations.ResetLeavesTheHostsSide := by
  intro s hn
  exact ⟨_, step_resets hn, fun _ => rfl, rfl, rfl⟩

/-- Settles O42: each cause by its own equation. -/
theorem busErrorCausesAreNumbered : Obligations.BusErrorCausesAreNumbered :=
  ⟨rfl, rfl, rfl, rfl, rfl⟩

/-- Any four bits above one bit, three zeros between them: each field is read back (10_state.md R30). -/
theorem extract_status_fields : ∀ (code : BitVec 4) (busy : BitVec 1),
    ((code.setWidth 32 <<< 4) ||| busy.setWidth 32 : Word).extractLsb' 0 1 = busy ∧
    ((code.setWidth 32 <<< 4) ||| busy.setWidth 32 : Word).extractLsb' 1 3 = 0#3 ∧
    ((code.setWidth 32 <<< 4) ||| busy.setWidth 32 : Word).extractLsb' 4 4 = code ∧
    ((code.setWidth 32 <<< 4) ||| busy.setWidth 32 : Word).extractLsb' 8 24 = 0#24 := by
  decide

/-- The bit `BUSY` by the phase (R33). -/
theorem Phase.busyBit_eq (p : Phase) : p.busyBit = if p = .busy then 1#1 else 0#1 := by
  cases p <;> rfl

/-- Settles O45: `STATUS` is put together from the bits of `ERRCODE` and the bit `BUSY`. -/
theorem statusWordFields : Obligations.StatusWordFields := by
  intro b
  rw [← Phase.busyBit_eq]
  exact extract_status_fields b.errcode.code b.phase.busyBit

end Sys2Proof.Machine
end

section
/-! PROOFS. The statements on running a command: the steps that do it, its start and transition, and its frame. -/

namespace Sys2Proof.Machine

/-! A step runs the decoded command (30_encoding.md R86, 10_state.md R34). -/

/-- A word that decodes to a command is issued as it. -/
theorem issueWord_ok {w : Word} {i : Instr} (h : decodeWord w = .ok i) (s : State) : issueWord w s = exec i s := by
  rw [(decodeWord_eq_ok_iff w i).1 h, issueWord_encode]

/-- Settles O5: the write of `CMD` is accepted and its word issued. -/
theorem stepRunsTheDecodedCommand : Obligations.StepRunsTheDecodedCommand := by
  intro s k w rest i hn hp hh hd
  exact (step_issues hn hp hh).trans (issueWord_ok hd _)

/-- Settles O6: both sides are the transition of the command in `OP`. -/
theorem engineTurnRunsTheCommandInProgress : Obligations.EngineTurnRunsTheCommandInProgress := by
  intro s hn hp
  exact (step_transition hn hp).trans (exec_busy s.block.op s.dropTurn hp rfl).symm

/-- A row of the command table 32 bits wide decodes as its word (R87). -/
theorem decodeTableWord_eq_some {w : Nat} {i : Instr} (h : decodeTableWord 32 w = some i) :
    decodeWord (tableWord 32 w) = .ok i := by
  cases hd : decodeWord (tableWord 32 w) <;> simp_all [decodeTableWord, decodeBytes]

/-- Once the placed access is performed, all that is left of the placing is its answer (log entry 7). -/
theorem placeAccess_answered (s : State) (a : HostOp) (r : Response) :
    (s.placeAccess a).answered 0 (s.master 0).pending r = s.respond 0 r := by
  simp [State.placeAccess, State.answered, State.respond, State.setPending, State.setMaster]

/-- Settles O7: the placed word is host 0's oldest access, and it is that host's turn. -/
theorem placedCommandWordRunsNext : Obligations.PlacedCommandWordRunsNext := by
  intro s w i hp _ hd
  let placed : State := s.withFetchWord 32 w
  have hpending : (placed.master 0).pending =
      .write Reg.cmd.offset 32 (tableWord 32 w) :: (s.master 0).pending := State.placeAccess_pending s _
  calc step placed
      = issueWord (tableWord 32 w) (placed.answered 0 (s.master 0).pending .written) :=
        step_issues (State.placeAccess_nextTurn s _) hp hpending
    _ = exec i (placed.answered 0 (s.master 0).pending .written) := issueWord_ok (decodeTableWord_eq_some hd) _
    _ = exec i (s.respond 0 .written) := congrArg (exec i) (placeAccess_answered s _ _)

/-! Starts and transitions (41_seed_load.md R120, R125; 42_step.md R140; 70_reset_and_hazards.md R236). -/

/-- The three other commands. -/
theorem ne_bounded_of {i : Instr} (hi : i = .seed ∨ i = .step ∨ i = .loadst) : i ≠ .bounded := by
  rcases hi with rfl | rfl | rfl <;> decide

/-- Settles O9: the start of a command that is not `BOUNDED`. -/
theorem seedStepAndLoadstStartFromIdle : Obligations.SeedStepAndLoadstStartFromIdle := by
  intro i s hi hp
  rw [exec_idle i s hp, Block.startOf_of_ne_bounded (ne_bounded_of hi), Block.start]

/-- Settles O22: a start and then a transition, which completes. -/
theorem oneTransitionCommandsCompleteAtOnce : Obligations.OneTransitionCommandsCompleteAtOnce := by
  intro i s hi hp
  have hstart := Block.startOf_of_ne_bounded (ne_bounded_of hi) s.block
  have hbusy : (Block.startOf i s.block).phase = .busy := by rw [hstart, Block.start_phase]
  have hop : (Block.startOf i s.block).op = i := by rw [hstart, Block.start_op]
  refine ⟨_, _, exec_idle i s hp, hbusy, hop, exec_busy i _ hbusy hop,
    Block.transitionOf_phase_of_ne_bounded (ne_bounded_of hi) _, ?_⟩
  rw [Block.transitionOf_errcode, hstart, Block.start_errcode]

/-- Settles O23: the last case of what `exec` does. -/
theorem commandHasNoEffectWhileAnotherRuns : Obligations.CommandHasNoEffectWhileAnotherRuns :=
  fun i s hp hop => exec_other i s hp hop

/-! The frame (30_encoding.md R81; 10_state.md R24, R28, R29, R31, R37). -/

/-- Each byte from 0x0C to 0x1F is one of `BOUND`, `ARG0` or `ARG1` (10_state.md R27). -/
theorem Reg.ofOffset_operand : ∀ off : Fin 64, 0x0C ≤ off.val → off.val < 0x20 →
    ∃ r ∈ [Reg.bound, .arg0Lo, .arg0Hi, .arg1Lo, .arg1Hi],
      Reg.ofOffset ⟨4 * (off.val / 4), by omega⟩ = some r := by
  decide

/-- The bytes of the operand registers depend on the operands only. -/
theorem Block.windowByte_operand {b c : Block} (hbound : b.bound = c.bound) (harg0 : b.arg0 = c.arg0)
    (harg1 : b.arg1 = c.arg1) {off : Fin 64} (hlow : 0x0C ≤ off.val) (hhigh : off.val < 0x20) :
    b.windowByte off = c.windowByte off := by
  obtain ⟨r, hr, hoff⟩ := Reg.ofOffset_operand off hlow hhigh
  have hread : b.readReg r = c.readReg r := by
    simp only [List.mem_cons, List.not_mem_nil, or_false] at hr
    rcases hr with rfl | rfl | rfl | rfl | rfl <;> simp [Block.readReg, hbound, harg0, harg1]
  simp only [Block.windowByte, hoff, hread]

/-- No command writes an operand register (10_state.md R28, R29). -/
theorem exec_operands {i : Instr} {s t : State} (h : exec i s = .next t) :
    t.block.bound = s.block.bound ∧ t.block.arg0 = s.block.arg0 ∧ t.block.arg1 = s.block.arg1 := by
  rcases exec_block_cases h with ⟨-, hb⟩ | ⟨-, -, hb⟩ | ⟨-, -, hb⟩
  · obtain ⟨-, -, -, hbound, harg0, harg1⟩ := Block.startOf_frame i s.block
    exact hb ▸ ⟨hbound, harg0, harg1⟩
  · simp [hb]
  · simp [hb]

/-- A command in an idle state, being a start, leaves the generator state and `RESULT`. -/
theorem exec_idle_generator {i : Instr} {s t : State} (h : exec i s = .next t) (hp : s.block.phase = .idle) :
    t.block.acc = s.block.acc ∧ t.block.incTop = s.block.incTop ∧ t.block.result = s.block.result := by
  obtain ⟨hacc, hinc, hresult, -⟩ := Block.startOf_frame i s.block
  rw [exec_idle i s hp] at h
  cases h
  exact ⟨hacc, hinc, hresult⟩

/-- A command in a busy state, being a transition or nothing, leaves `ERRCODE`, `OP` and `THRESH`. -/
theorem exec_busy_sequencing {i : Instr} {s t : State} (h : exec i s = .next t) (hp : s.block.phase = .busy) :
    t.block.errcode = s.block.errcode ∧ t.block.op = s.block.op ∧ t.block.thresh = s.block.thresh := by
  rcases exec_block_cases h with ⟨hidle, -⟩ | ⟨-, -, hb⟩ | ⟨-, -, hb⟩
  · rw [hp] at hidle
    cases hidle
  · simp [hb]
  · simp [hb]

/-- `STEP` and `BOUNDED` leave `INC` (10_state.md R24). -/
theorem exec_keeps_inc {i : Instr} {s t : State} (h : exec i s = .next t) (hi : i = .step ∨ i = .bounded) :
    t.block.inc = s.block.inc := by
  rw [Block.inc_inj]
  rcases exec_block_cases h with ⟨hp, -⟩ | ⟨-, -, hb⟩ | ⟨-, -, hb⟩
  · obtain ⟨-, hinc, -⟩ := exec_idle_generator h hp
    exact hinc
  · rw [hb, Block.transitionOf_incTop hi]
  · rw [hb]

/-- `SEED` and `LOADST` leave `RESULT` (10_state.md R37). -/
theorem exec_keeps_result {i : Instr} {s t : State} (h : exec i s = .next t) (hi : i = .seed ∨ i = .loadst) :
    t.block.result = s.block.result := by
  rcases exec_block_cases h with ⟨hp, -⟩ | ⟨-, -, hb⟩ | ⟨-, -, hb⟩
  · obtain ⟨-, -, hresult⟩ := exec_idle_generator h hp
    exact hresult
  · rw [hb, Block.transitionOf_result hi]
  · rw [hb]

/-- Only `BOUNDED` writes `THRESH` (10_state.md R35). -/
theorem exec_keeps_thresh {i : Instr} {s t : State} (h : exec i s = .next t) (hi : i ≠ .bounded) :
    t.block.thresh = s.block.thresh := by
  rcases exec_block_cases h with ⟨-, hb⟩ | ⟨-, -, hb⟩ | ⟨-, -, hb⟩
  · rw [hb, Block.startOf_of_ne_bounded hi, Block.start_thresh]
  · rw [hb, Block.transitionOf_thresh]
  · rw [hb]

/-- Settles O24: a command changes the block only, and of the block each register by its own lemma. -/
theorem commandsLeaveEverythingElseUnchanged : Obligations.CommandsLeaveEverythingElseUnchanged := by
  intro i s t h
  have hframe := exec_frame h
  obtain ⟨hbound, harg0, harg1⟩ := exec_operands h
  refine ⟨by rw [hframe], by rw [hframe], by rw [hframe], hbound, harg0, harg1, exec_keeps_inc h,
    exec_keeps_result h, exec_keeps_thresh h, exec_busy_sequencing h, fun hp => ?_,
    fun off hlow hhigh => Block.windowByte_operand hbound harg0 harg1 hlow hhigh⟩
  obtain ⟨hacc, hinc, hresult⟩ := exec_idle_generator h hp
  exact ⟨hacc, Block.inc_inj.2 hinc, hresult⟩

end Sys2Proof.Machine
end

section
/-! PROOFS. The statements on the datapath (40_datapath.md): the output permutation bit by bit, the rejection
threshold and the worked values. -/

namespace Sys2Proof.Machine

/-! The output permutation (R101, R103). -/

/-- Bit `i` of the xorshifted value; from bit 19 on the shifted-in operand is past the top of the word (R101). -/
theorem getLsbD_xorshifted (old : DWord) {i : Nat} (hi : i < 32) :
    (xorshifted old).getLsbD i = (old.getLsbD (45 + i) ^^ old.getLsbD (27 + i)) := by
  simp [xorshifted, trunc32, hi, show 18 + (27 + i) = 45 + i by omega]

/-- Settles O16: bits 45 and up of the state reach bits 0 to 18 only. -/
theorem xorshiftAndRotationBits : Obligations.XorshiftAndRotationBits := by
  intro old
  refine ⟨fun i hi => ?low, fun i hlow hi => ?high, rot_toNat old, rot_le old⟩
  case low => rw [getLsbD_xorshifted old (by omega), Bool.xor_comm]
  case high =>
    have hpast : old.getLsbD (45 + i) = false := BitVec.getLsbD_of_ge old _ (by omega)
    rw [getLsbD_xorshifted old (by omega), hpast, Bool.false_xor]

/-! The rejection threshold (R107). -/

/-- The threshold is below its bound (R107 item 2). -/
theorem threshold_lt {bound : Word} (h : bound ≠ 0#32) : (threshold bound).toNat < bound.toNat := by
  rw [threshold_toNat bound h]
  exact Nat.mod_lt _ (toNat_pos_of_ne_zero h)

/-- The threshold is 0 exactly when the bound divides `2^32`, which are the powers of two (R107 item 3). -/
theorem threshold_eq_zero_iff {bound : Word} (h : bound ≠ 0#32) :
    threshold bound = 0#32 ↔ ∃ k, k < 32 ∧ bound.toNat = 2 ^ k := by
  have hdvd : threshold bound = 0#32 ↔ bound.toNat ∣ 2 ^ 32 := by
    rw [← BitVec.toNat_inj, threshold_toNat bound h, Nat.dvd_iff_mod_eq_zero]
    rfl
  rw [hdvd, Nat.dvd_prime_pow Nat.prime_two]
  refine exists_congr fun k => and_congr_left fun hk => ⟨fun _ => ?_, Nat.le_of_lt⟩
  exact (Nat.pow_lt_pow_iff_right Nat.one_lt_two).1 (hk ▸ bound.isLt)

/-- The threshold is at most `2^31 - 1`: below a bound of at most `2^31`, and otherwise what the bound leaves of
`2^32` (R107 item 4). -/
theorem threshold_le {bound : Word} (h : bound ≠ 0#32) : (threshold bound).toNat ≤ 2 ^ 31 - 1 := by
  have hlt := threshold_lt h
  by_cases hsmall : bound.toNat ≤ 2 ^ 31
  · omega
  · rw [threshold_toNat bound h, Nat.mod_eq_sub_mod (Nat.le_of_lt bound.isLt),
      Nat.mod_eq_of_lt (show 2 ^ 32 - bound.toNat < bound.toNat by omega)]
    omega

/-- Settles O25: each property by its lemma, and the extreme one by evaluation. -/
theorem thresholdIsTwoToThe32ModBound : Obligations.ThresholdIsTwoToThe32ModBound :=
  fun bound h => ⟨threshold_toNat bound h, threshold_lt h, threshold_eq_zero_iff h, threshold_le h, by decide⟩

/-- A whole number of periods holds each residue once per period. -/
theorem card_filter_mod_eq (a q : Nat) {b c : Nat} (hc : c < b) :
    ((Finset.Ico a (a + q * b)).filter (fun r => r % b = c)).card = q := by
  have hb : (0 : ℚ) < b := by exact_mod_cast Nat.zero_lt_of_lt hc
  have hfilter : (Finset.Ico a (a + q * b)).filter (fun r => r % b = c) =
      (Finset.Ico a (a + q * b)).filter (fun r => r ≡ c [MOD b]) :=
    Finset.filter_congr fun r _ => by rw [Nat.ModEq, Nat.mod_eq_of_lt hc]
  have hshift : ((a + q * b : ℕ) - c : ℚ) / b = (a - c : ℚ) / b + (q : ℤ) := by
    field_simp
    push_cast
    ring
  have hcard := Nat.Ico_filter_modEq_card a (a + q * b) (Nat.zero_lt_of_lt hc) c
  rw [hshift, Int.ceil_add_intCast] at hcard
  rw [hfilter]
  omega

/-- Settles O26: the accepted draws are those from the threshold to `2^32`, which is a whole number of periods. -/
theorem acceptedDrawsAreUnbiased : Obligations.AcceptedDrawsAreUnbiased := by
  intro bound c hbound hc
  obtain ⟨q, hq⟩ : ∃ q, 2 ^ 32 = (threshold bound).toNat + q * bound.toNat :=
    ⟨2 ^ 32 / bound.toNat, by rw [threshold_toNat bound hbound, Nat.mul_comm, Nat.mod_add_div]⟩
  have haccepted : (Finset.range (2 ^ 32)).filter (fun r =>
      accept (BitVec.ofNat 32 r) (threshold bound) = true ∧ (reduce (BitVec.ofNat 32 r) bound).toNat = c) =
      (Finset.Ico (threshold bound).toNat ((threshold bound).toNat + q * bound.toNat)).filter
        (fun r => r % bound.toNat = c) := by
    ext r
    simp only [Finset.mem_filter, Finset.mem_range, Finset.mem_Ico, accept_iff, reduce, BitVec.toNat_umod,
      BitVec.toNat_ofNat, ← hq]
    constructor
    · rintro ⟨hr, haccept, hmod⟩
      rw [Nat.mod_eq_of_lt hr] at haccept hmod
      exact ⟨⟨haccept, hr⟩, hmod⟩
    · rintro ⟨⟨haccept, hr⟩, hmod⟩
      rw [Nat.mod_eq_of_lt hr]
      exact ⟨hr, haccept, hmod⟩
  have hquotient : (2 ^ 32 - (threshold bound).toNat) / bound.toNat = q := by
    rw [hq, Nat.add_sub_cancel_left, Nat.mul_div_cancel _ (toNat_pos_of_ne_zero hbound)]
  rw [haccepted, card_filter_mod_eq _ _ hc, hquotient]

/-- Settles O27: each of the ten rows is evaluated. -/
theorem datapathWorkedValues : Obligations.DatapathWorkedValues := by
  intro row hrow
  simp only [List.mem_cons, List.not_mem_nil, or_false] at hrow
  rcases hrow with rfl | rfl | rfl | rfl | rfl | rfl | rfl | rfl | rfl | rfl <;> decide

end Sys2Proof.Machine
end

section
/-! PROOFS. The statements on `SEED` (41_seed_load.md): its closed form, and what it depends on. -/

namespace Sys2Proof.Machine

/-- The increment that `SEED` makes of `initSeq` (R121). -/
def seedInc (initSeq : DWord) : DWord := (initSeq <<< 1) ||| 1#64

/-- The stored field of the increment is `initSeq` without its top bit (R123 item 2). -/
theorem seedInc_top (initSeq : DWord) : (seedInc initSeq).extractLsb' 1 63 = initSeq.setWidth 63 := by
  apply BitVec.eq_of_getLsbD_eq
  intro i hi
  have hi' : 1 + i < 64 := by omega
  rw [BitVec.getLsbD_extractLsb', seedInc, BitVec.getLsbD_or, BitVec.getLsbD_shiftLeft, BitVec.getLsbD_setWidth]
  simp [hi, hi']

/-- The increment is odd already, so that loading it into `INC` loses nothing (R22). -/
theorem seedInc_or_one (initSeq : DWord) : seedInc initSeq ||| 1#64 = seedInc initSeq := by
  rw [seedInc, BitVec.or_assoc, BitVec.or_self]

/-- The top bit of `initSeq` is shifted out (R123 item 2). -/
theorem seedInc_xor_top_bit (initSeq : DWord) :
    seedInc (initSeq ^^^ 0x8000000000000000#64) = seedInc initSeq := by
  have htop : (0x8000000000000000#64 : DWord) <<< 1 = 0#64 := by decide
  rw [seedInc, BitVec.shiftLeft_xor_distrib, htop, BitVec.xor_zero, seedInc]

/-- The five steps of `SEED`: the first advance is of 0, and gives the increment (R121). -/
theorem Block.seedTransition_acc (b : Block) :
    b.seedTransition.acc = lcgNext (seedInc b.arg1 + b.arg0) (seedInc b.arg1) :=
  congrArg (fun acc => lcgNext (acc + b.arg0) (seedInc b.arg1)) (lcgNext_zero (seedInc b.arg1))

/-- `INC` after `SEED` (R121). -/
theorem Block.seedTransition_inc (b : Block) : b.seedTransition.inc = seedInc b.arg1 :=
  (b.inc_setInc (seedInc b.arg1)).trans (seedInc_or_one b.arg1)

/-- All that `SEED` writes (R121). -/
theorem Block.seedTransition_eq (b : Block) :
    b.seedTransition = { b with
      acc := lcgNext (seedInc b.arg1 + b.arg0) (seedInc b.arg1)
      incTop := b.arg1.setWidth 63
      phase := .idle } := by
  rw [← b.seedTransition_acc, ← seedInc_top]
  rfl

/-- Settles O12: the closed form of the transition. -/
theorem seedTransitionHasItsClosedForm : Obligations.SeedTransitionHasItsClosedForm := by
  intro s hbusy hop
  refine ⟨_, exec_busy .seed s hbusy hop, ?block, s.block.seedTransition_inc⟩
  case block => rw [Block.transitionOf, Block.seedTransition_eq, lcgNext, mul64, seedInc]

/-- Settles O13: the seeded state is made of `ARG0` and the increment, which the top bit of `ARG1` does not reach. -/
theorem seedDependsOnlyOnItsOperands : Obligations.SeedDependsOnlyOnItsOperands := by
  intro s₁ s₂ hbusy₁ hop₁ hbusy₂ hop₂ harg0 harg1
  have hinc : seedInc s₁.block.arg1 = seedInc s₂.block.arg1 := by
    rcases harg1 with h | h
    · rw [h]
    · rw [h, seedInc_xor_top_bit]
  refine ⟨_, _, exec_busy .seed s₁ hbusy₁ hop₁, exec_busy .seed s₂ hbusy₂ hop₂, ?acc, ?inc⟩
  case acc => simp only [Block.transitionOf, Block.seedTransition_acc, harg0, hinc]
  case inc => simp only [Block.transitionOf, Block.seedTransition_inc, hinc]

/-- Settles O28: the transitions' closed forms at the operands of the examples, and the loop draw by draw. -/
theorem workedCommandExamples : Obligations.WorkedCommandExamples := by
  refine ⟨fun s hbusy hop harg0 harg1 => ?seed, fun s hbusy hop hacc hinc => ?step, by decide, by decide⟩
  case seed =>
    refine ⟨_, exec_busy .seed s hbusy hop, ?_, ?_⟩
    · rw [Block.transitionOf, Block.seedTransition_acc, harg0, harg1]
      decide
    · rw [Block.transitionOf, Block.seedTransition_inc, harg1]
      decide
  case step =>
    refine ⟨_, exec_busy .step s hbusy hop, ?_, ?_⟩
    · rw [Block.transitionOf, Block.stepTransition_result, hacc]
      decide
    · rw [Block.transitionOf, Block.stepTransition_acc, hacc, hinc]
      decide

end Sys2Proof.Machine
end

section
/-! PROOFS. The statements on `BOUNDED` (43_bounded.md): the value of a draw, the rejection loop as a whole, and
its end. -/

namespace Sys2Proof.Machine

/-! One draw (R153, R158). -/

/-- What a draw does, by the output (R153). -/
theorem exec_bounded_cases {s t : State} (hbusy : s.block.phase = .busy) (hop : s.block.op = .bounded)
    (h : exec .bounded s = .next t) :
    (s.block.thresh.toNat ≤ (output s.block.acc).toNat ∧ t = { s with block := { s.block with
      acc := lcgNext s.block.acc s.block.inc, result := output s.block.acc % s.block.bound, phase := .idle } }) ∨
    ((output s.block.acc).toNat < s.block.thresh.toNat ∧
      t = { s with block := { s.block with acc := lcgNext s.block.acc s.block.inc } }) := by
  rcases Nat.lt_or_ge (output s.block.acc).toNat s.block.thresh.toNat with hr | hr
  · rw [exec_bounded_discards hbusy hop hr] at h
    cases h
    exact .inr ⟨hr, rfl⟩
  · rw [exec_bounded_accepts hbusy hop hr] at h
    cases h
    exact .inl ⟨hr, rfl⟩

/-- Settles O19: a draw that completes the command was reduced mod `BOUND`. -/
theorem boundedResultIsBelowItsBound : Obligations.BoundedResultIsBelowItsBound := by
  intro s t hbusy hop hbound h hidle
  rcases exec_bounded_cases hbusy hop h with ⟨-, rfl⟩ | ⟨-, rfl⟩
  · exact reduce_lt _ _ hbound
  · exact absurd (hbusy.symm.trans hidle) nofun

/-- A power of two below `2^32` as a word. -/
theorem toNat_one_shiftLeft {k : Nat} (hk : k < 32) : (1#32 <<< k).toNat = 2 ^ k := by
  have : 2 ^ k < 2 ^ 32 := Nat.pow_lt_pow_right Nat.one_lt_two hk
  rw [BitVec.toNat_shiftLeft, Nat.shiftLeft_eq]
  simpa using this

/-- Reducing mod a power of two keeps the low bits (R158). -/
theorem umod_one_shiftLeft (r : Word) {k : Nat} (hk : k < 32) : r % (1#32 <<< k) = r &&& (1#32 <<< k - 1#32) := by
  have hpos : 1 ≤ 2 ^ k := Nat.one_le_two_pow
  have hpred : (1#32 <<< k - 1#32).toNat = 2 ^ k - 1 := by
    rw [BitVec.toNat_sub_of_le (by rw [BitVec.le_def, toNat_one_shiftLeft hk]; exact hpos),
      toNat_one_shiftLeft hk]
    rfl
  apply BitVec.eq_of_toNat_eq
  rw [BitVec.toNat_umod, BitVec.toNat_and, hpred, toNat_one_shiftLeft hk, Nat.and_two_pow_sub_one_eq_mod]

/-- Settles O20: the threshold is 0, so that the first draw is accepted. -/
theorem powerOfTwoBoundTakesOneDraw : Obligations.PowerOfTwoBoundTakesOneDraw := by
  intro s k hk hbusy hop hbound hthresh
  have hnat : s.block.bound.toNat = 2 ^ k := by rw [hbound, toNat_one_shiftLeft hk]
  have hne : s.block.bound ≠ 0#32 := fun h => by
    rw [h] at hnat
    exact (Nat.two_pow_pos k).ne hnat
  have hzero : s.block.thresh = 0#32 := hthresh.trans ((threshold_eq_zero_iff hne).2 ⟨k, hk, hnat⟩)
  rw [exec_bounded_accepts hbusy hop (by simp [hzero]), hbound, umod_one_shiftLeft _ hk]

/-- Settles O21: `STEP` reads `ACC` and `INC`, and a draw `BOUND` and `THRESH` beside them. -/
theorem drawsDependOnlyOnGeneratorStateAndBound : Obligations.DrawsDependOnlyOnGeneratorStateAndBound := by
  rintro i s₁ s₂ (rfl | rfl) hbusy₁ hop₁ hbusy₂ hop₂ hacc hinc hoperands
  · refine ⟨_, _, exec_busy .step s₁ hbusy₁ hop₁, exec_busy .step s₂ hbusy₂ hop₂, ?_, hinc, rfl, fun _ => ?_⟩
    · simp only [Block.transitionOf, Block.stepTransition_acc, hacc, hinc]
    · simp only [Block.transitionOf, Block.stepTransition_result, hacc]
  · obtain ⟨hbound, hthresh⟩ := hoperands rfl
    rcases Nat.lt_or_ge (output s₁.block.acc).toNat s₁.block.thresh.toNat with hr | hr
    · refine ⟨_, _, exec_bounded_discards hbusy₁ hop₁ hr,
        exec_bounded_discards hbusy₂ hop₂ (hacc ▸ hthresh ▸ hr), ?_, hinc, hbusy₁.trans hbusy₂.symm,
        fun hidle => absurd (hbusy₁.symm.trans hidle) nofun⟩
      simp only [hacc, hinc]
    · refine ⟨_, _, exec_bounded_accepts hbusy₁ hop₁ hr,
        exec_bounded_accepts hbusy₂ hop₂ (hacc ▸ hthresh ▸ hr), ?_, hinc, rfl, fun _ => ?_⟩
      · simp only [hacc, hinc]
      · simp only [hacc, hbound]

/-! The rejection loop (R152, R153, R154). -/

/-- With no turn prescribed, there is none to take off. -/
theorem State.dropTurn_of_nil {s : State} (hturns : s.turns = []) : s.dropTurn = s := by
  obtain ⟨block, masters, turns, draws⟩ := s
  obtain rfl : turns = [] := hturns
  rfl

/-- One draw of the machine in the default order, which is the engine's while `BUSY` (log entry 2). -/
theorem step_draw {s : State} (hturns : s.turns = []) (hbusy : s.block.phase = .busy)
    (hop : s.block.op = .bounded) : step s = .next { s with block := s.block.drawTransition } := by
  rw [step_transition (State.nextTurn_busy hturns hbusy) hbusy, State.dropTurn_of_nil hturns, hop]
  rfl

/-- Settles O29: by induction on the fuel; each step is one draw of the function and of the machine. -/
theorem boundedIsTheSourcesRejectionLoop : Obligations.BoundedIsTheSourcesRejectionLoop := by
  intro s fuel
  induction fuel generalizing s with
  | zero => exact nofun
  | succ fuel ih =>
    intro a r hturns hbusy hop hbound hthresh h
    rw [boundedDraw_succ] at h
    split at h
    case isTrue haccept =>
      rw [accept_iff] at haccept
      cases h
      refine ⟨1, Nat.le_refl 1, Nat.le_add_left 1 fuel, rfl, by omega, haccept, rfl, ?_⟩
      rw [run_succ 0 (step_draw hturns hbusy hop), s.block.drawTransition_accept (hthresh ▸ haccept)]
      rfl
    case isFalse hreject =>
      rw [accept_iff] at hreject
      have hdraw := step_draw hturns hbusy hop
      rw [s.block.drawTransition_reject (hthresh ▸ hreject)] at hdraw
      obtain ⟨k, hpos, hle, ha, hrejected, haccepted, hr, hrun⟩ :=
        ih { s with block := { s.block with acc := lcgNext s.block.acc s.block.inc } } a r hturns hbusy hop hbound
          hthresh h
      obtain ⟨k, rfl⟩ := Nat.exists_eq_add_of_le' hpos
      refine ⟨k + 2, by omega, by omega, ha, fun j hj => ?_, haccepted, hr, (run_succ (k + 1) hdraw).trans hrun⟩
      cases j with
      | zero => exact Nat.lt_of_not_le hreject
      | succ j => exact hrejected j (by omega)

/-! Termination (R156). -/

/-- The loop has ended after the first output that is at least the threshold. -/
theorem boundedDraw_ends {inc : DWord} {bound : Word} {n : Nat} {acc : DWord}
    (h : (threshold bound).toNat ≤ (output ((fun x => lcgNext x inc)^[n] acc)).toNat) :
    ∃ a r, boundedDraw inc bound (n + 1) acc = some (a, r) := by
  induction n generalizing acc with
  | zero => exact ⟨_, _, if_pos ((accept_iff _ _).2 h)⟩
  | succ n ih =>
    rw [boundedDraw_succ]
    split
    · exact ⟨_, _, rfl⟩
    · exact ih h

/-- Some state has an output that every bound accepts: that of all ones (Table T of the worked values). -/
theorem threshold_le_output_allOnes {bound : Word} (h : bound ≠ 0#32) :
    (threshold bound).toNat ≤ (output 0xFFFFFFFFFFFFFFFF#64).toNat := by
  have hmax := threshold_le h
  have hout : (output 0xFFFFFFFFFFFFFFFF#64).toNat = 0xFFF00001 := by decide
  omega

/-- A `BOUNDED` in progress, left to the engine, completes within `2^64` draws: the generator reaches the state of
all ones within its period (93 G3). -/
theorem run_bounded_completes {s : State} (hturns : s.turns = []) (hbusy : s.block.phase = .busy)
    (hop : s.block.op = .bounded) (hbound : s.block.bound ≠ 0#32)
    (hthresh : s.block.thresh = threshold s.block.bound) :
    ∃ k a r, 1 ≤ k ∧ k ≤ 2 ^ 64 ∧ r.toNat < s.block.bound.toNat ∧
      Host.Core.run Sys2Proof.core k s =
        .next { s with block := { s.block with acc := a, result := r, phase := .idle } } := by
  have hodd : s.block.inc.getLsbD 0 = true := by rw [Block.inc_getLsbD, if_pos rfl]
  obtain ⟨n, hn, hreach⟩ := Period.iterate_reaches s.block.inc s.block.acc 0xFFFFFFFFFFFFFFFF#64 hodd
  obtain ⟨a, r, hdraws⟩ := boundedDraw_ends (hreach ▸ threshold_le_output_allOnes hbound)
  obtain ⟨k, hpos, hle, -, -, -, hr, hrun⟩ :=
    boundedIsTheSourcesRejectionLoop s (n + 1) a r hturns hbusy hop hbound hthresh hdraws
  refine ⟨k, a, r, hpos, by omega, ?_, hrun⟩
  rw [hr]
  exact reduce_lt _ _ hbound

/-- Settles O30: the run of the loop. -/
theorem everyBoundedCommandCompletes : Obligations.EveryBoundedCommandCompletes := by
  intro s hturns hbusy hop hbound hthresh
  obtain ⟨k, a, r, hpos, hle, hr, hrun⟩ := run_bounded_completes hturns hbusy hop hbound hthresh
  exact ⟨k, _, hpos, hle, hrun, rfl, hr⟩

end Sys2Proof.Machine
end

section
/-! PROOFS. The statements on several hosts (20_memory.md R68, 44_host_api.md R178): what a turn does to the hosts'
streams, and that the block does not see whose turn it was. -/

namespace Sys2Proof.Machine

/-! The stream of the host whose turn it is. -/

/-- Issuing a word leaves the hosts. -/
theorem issueWord_masters {w : Word} {s t : State} (h : issueWord w s = .next t) : t.masters = s.masters := by
  cases hd : decodeWord w with
  | ok i =>
    rw [issueWord_ok hd] at h
    rw [exec_frame h]
  | reject r =>
    rw [issueWord_reject hd] at h
    cases h
    rfl

/-- A read or a write, accepted or refused, is answered once and leaves what is pending. -/
theorem perform_responds {k : Nat} {a : HostOp} {s t : State} (h : perform k a s = .next t)
    (ha : (∃ off n, a = .read off n) ∨ ∃ off n v, a = .write off n v) :
    ∃ r, t.masters = (s.respond k r).masters := by
  rcases ha with ⟨off, n, rfl⟩ | ⟨off, n, v, rfl⟩
  · obtain ⟨r, d, hread⟩ := s.busRead_cases k off n
    rw [perform, hread] at h
    cases h
    exact ⟨r, rfl⟩
  · rw [perform] at h
    rcases busWrite_cases k off n v s with ⟨c, -, hwrite⟩ | ⟨-, -, -, hwrite⟩ | ⟨-, -, r, -, -, -, hwrite⟩
    · rw [hwrite] at h
      cases h
      exact ⟨_, rfl⟩
    · rw [hwrite] at h
      exact ⟨_, issueWord_masters h⟩
    · rw [hwrite] at h
      cases h
      exact ⟨_, rfl⟩

/-- Performing an access adds to its host's answers; it takes entries off what is pending or leaves it, but for a
`POLL` that goes on while `BUSY` (44_host_api.md R170, R173). -/
theorem perform_stream {k : Nat} {a : HostOp} {s t : State} (h : perform k a s = .next t) :
    (s.master k).answers <:+ (t.master k).answers ∧
    ((t.master k).pending <:+ (s.master k).pending ∨
      a = .poll ∧ s.block.phase = .busy ∧ (t.master k).pending = .poll :: (s.master k).pending) := by
  have responded : (∃ r, t.masters = (s.respond k r).masters) →
      (s.master k).answers <:+ (t.master k).answers ∧ (t.master k).pending <:+ (s.master k).pending := by
    rintro ⟨r, hr⟩
    simp [hr]
  cases a with
  | read off n => exact (responded (perform_responds h (.inl ⟨off, n, rfl⟩))).imp_right .inl
  | write off n v => exact (responded (perform_responds h (.inr ⟨off, n, v, rfl⟩))).imp_right .inl
  | poll =>
    rw [perform, State.pollStatus, statusBusy_status] at h
    cases hp : s.block.phase with
    | idle =>
      simp only [hp, reduceCtorEq, decide_false, Bool.false_eq_true, if_false] at h
      cases h
      exact (responded ⟨_, rfl⟩).imp_right .inl
    | busy =>
      simp only [hp, decide_true, if_true] at h
      cases h
      simp
  | failIfBoundZero n =>
    rw [perform, State.checkBoundZero] at h
    by_cases hzero : statusErrcode s.block.status = ErrCode.boundZero.code
    · simp only [hzero, if_true] at h
      cases h
      simp [List.suffix_cons_iff, List.drop_suffix]
    · simp only [hzero, if_false] at h
      cases h
      exact (responded ⟨_, rfl⟩).imp_right .inl

/-- A turn of host `k` leaves every other host. -/
theorem step_host_others {s t : State} {k : Nat} (hn : s.nextTurn = .host k) (h : step s = .next t) {j : Nat}
    (hj : j ≠ k) : t.master j = s.master j := by
  cases hh : (s.master k).pending with
  | nil =>
    rw [step_host_silent hn hh] at h
    cases h
    rfl
  | cons a rest =>
    rw [step_performs hn hh] at h
    rw [perform_other h hj]
    exact masterAt_setMasterAt_other _ _ hj

/-- What a turn of host `k` does to its own stream. -/
theorem step_host_own {s t : State} {k : Nat} (hn : s.nextTurn = .host k) (h : step s = .next t) :
    (t.master k).pending <:+ (s.master k).pending ∧ (s.master k).answers <:+ (t.master k).answers ∧
    ((t.master k).pending = (s.master k).pending → (s.master k).pending = [] ∨
      s.block.phase = .busy ∧ (s.master k).pending.head? = some .poll) := by
  cases hh : (s.master k).pending with
  | nil =>
    rw [step_host_silent hn hh] at h
    cases h
    exact ⟨hh ▸ List.suffix_rfl, List.suffix_rfl, fun _ => .inl rfl⟩
  | cons a rest =>
    rw [step_performs hn hh] at h
    obtain ⟨hanswers, hpending⟩ := perform_stream h
    simp only [State.master_eq, State.setPending_masters, State.setPending_block, State.dropTurn_masters,
      State.dropTurn_block, masterAt_setMasterAt_same] at hanswers hpending ⊢
    refine ⟨?suffix, hanswers, ?same⟩
    case suffix =>
      rcases hpending with hshorter | ⟨rfl, -, hsame⟩
      · exact hshorter.trans (List.suffix_cons a rest)
      · exact hsame ▸ List.suffix_rfl
    case same =>
      intro hsame
      rcases hpending with hshorter | ⟨rfl, hbusy, -⟩
      · have := hshorter.length_le
        simp [hsame] at this
      · exact .inr ⟨hbusy, rfl⟩

/-- The engine and a reset leave every host. -/
theorem step_leaves_hosts {s t : State} (hn : s.nextTurn = .engine ∨ s.nextTurn = .reset) (h : step s = .next t) :
    t.masters = s.masters := by
  rcases step_cases h with ⟨-, rfl⟩ | ⟨-, -, rfl⟩ | ⟨-, -, rfl⟩ | ⟨k, hk, -⟩ | ⟨k, hk, -⟩
  case inr.inr.inr.inl | inr.inr.inr.inr => simp [hk] at hn
  all_goals rfl

/-- Settles O52: a host's turn, and the two turns that are no host's. -/
theorem eachHostKeepsItsOwnStream : Obligations.EachHostKeepsItsOwnStream :=
  ⟨fun _ _ _ hn h => ⟨fun _ hj => step_host_others hn h hj, step_host_own hn h⟩,
    fun _ _ hn h k => congrArg (masterAt · k) (step_leaves_hosts hn h)⟩

/-! The block does not see the host (20_memory.md R68). -/

/-- What a read answers, and whether it takes a free value, is given by the block and the count of free values. -/
theorem read_uniform (off : Fin 64) (n : Nat) (b : Block) (d : Nat) : ∃ d' r, ∀ (k : Nat) (s : State),
    s.block = b → s.draws = d → perform k (.read off n) s = .next { s.respond k r with draws := d' } := by
  cases hc : busCheck false off n b.phase with
  | some c =>
    refine ⟨d, .busError c, ?_⟩
    rintro k s rfl rfl
    rw [perform, s.busRead_refused k off n c hc]
    rfl
  | none =>
    obtain ⟨rfl, r, rfl, -⟩ := (busCheck_eq_none _ _ _ _).1 hc
    cases hv : b.readReg r with
    | some v =>
      refine ⟨d, .data v, ?_⟩
      rintro k s rfl rfl
      simp only [perform, State.busRead_register, State.deliver, hv]
      rfl
    | none =>
      refine ⟨d + 1, .data (r.openValue (Config.freeWord d)), ?_⟩
      rintro k s rfl rfl
      simp only [perform, State.busRead_register, State.deliver, hv]

/-- What a write answers and does to the block is given by the block. -/
theorem write_uniform (off : Fin 64) (n : Nat) (v : Word) (b : Block) : ∃ b' r, ∀ (k : Nat) (s : State),
    s.block = b → perform k (.write off n v) s = .next { s.respond k r with block := b' } := by
  cases hc : busCheck true off n b.phase with
  | some c =>
    refine ⟨b, .busError c, ?_⟩
    rintro k s rfl
    exact busWrite_refused k off n v s c hc
  | none =>
    obtain ⟨rfl, r, rfl, hw⟩ := (busCheck_eq_none _ _ _ _).1 hc
    obtain ⟨hr, hp⟩ := hw rfl
    by_cases hcmd : r = .cmd
    · subst hcmd
      cases hd : decodeWord v with
      | ok i =>
        refine ⟨Block.startOf i b, .written, ?_⟩
        rintro k s rfl
        rw [perform, busWrite_command k v s hp, issueWord_ok hd, exec_idle i (s.respond k .written) hp]
        rfl
      | reject e =>
        refine ⟨{ b with errcode := .illegalCmd }, .written, ?_⟩
        rintro k s rfl
        rw [perform, busWrite_command k v s hp, issueWord_reject hd]
        rfl
    · refine ⟨b.writeReg r v, .written, ?_⟩
      rintro k s rfl
      exact busWrite_operand k r v s hp hr hcmd

/-- The block after an access, the count of free values and the answer are given by the access, the block and the
count: the same ones for every host and every state around the block. -/
theorem perform_uniform (a : HostOp) (b : Block) (d : Nat) : ∃ b' d' r, ∀ (k : Nat) (s : State),
    s.block = b → s.draws = d → ∃ t, perform k a s = .next t ∧ t.block = b' ∧ t.draws = d' ∧
      (t.master k).answers.head? = some r := by
  cases a with
  | read off n =>
    obtain ⟨d', r, hread⟩ := read_uniform off n b d
    exact ⟨b, d', r, fun k s hb hd => ⟨_, hread k s hb hd, hb, rfl, by simp⟩⟩
  | write off n v =>
    obtain ⟨b', r, hwrite⟩ := write_uniform off n v b
    exact ⟨b', d, r, fun k s hb hd => ⟨_, hwrite k s hb, rfl, hd, by simp⟩⟩
  | poll =>
    refine ⟨b, d, .data b.status, ?_⟩
    rintro k s rfl rfl
    refine ⟨_, rfl, ?_⟩
    unfold State.pollStatus
    cases statusBusy s.block.status <;> simp
  | failIfBoundZero n =>
    by_cases hzero : statusErrcode b.status = ErrCode.boundZero.code
    · refine ⟨b, d, .callFailed .boundZero, ?_⟩
      rintro k s rfl rfl
      exact ⟨_, rfl, by simp [State.checkBoundZero, hzero]⟩
    · refine ⟨b, d, .data b.status, ?_⟩
      rintro k s rfl rfl
      exact ⟨_, rfl, by simp [State.checkBoundZero, hzero]⟩

/-- Settles O53: both turns perform the same access on the same block and the same count. -/
theorem blockDoesNotTellHostsApart : Obligations.BlockDoesNotTellHostsApart := by
  intro s j k a rj rk hj hk
  obtain ⟨b, d, r, uniform⟩ := perform_uniform a s.block s.draws
  have turn {i : Nat} {rest : List HostOp} (hi : (s.master i).pending = a :: rest) :
      ∃ t, step { s with turns := .host i :: s.turns } = .next t ∧ t.block = b ∧ t.draws = d ∧
        (t.master i).answers.head? = some r := by
    rw [step_performs (s := { s with turns := .host i :: s.turns }) rfl hi]
    exact uniform i _ rfl rfl
  obtain ⟨t, ht, htb, htd, htr⟩ := turn hj
  obtain ⟨u, hu, hub, hud, hur⟩ := turn hk
  exact ⟨t, u, ht, hu, htb.trans hub.symm, htd.trans hud.symm, htr.trans hur.symm⟩

end Sys2Proof.Machine
end

section
/-! PROOFS. The statements on time (70_reset_and_hazards.md R236): the command in progress goes on undisturbed, and
every `POLL` ends. -/

namespace Sys2Proof.Machine

/-- A step takes one turn off (log entry 2). -/
theorem step_turns {s t : State} (h : step s = .next t) : t.turns = s.turns.tail := by
  rcases step_cases h with ⟨-, rfl⟩ | ⟨-, -, rfl⟩ | ⟨-, -, rfl⟩ | ⟨k, -, -, rfl⟩ | ⟨k, -, a, rest, -, hperf⟩
  case inr.inr.inr.inr => exact perform_turns hperf
  all_goals rfl

/-! Host accesses beside a command in progress (20_memory.md R62). -/

/-- After any host turns, the engine's turn is the transition that it would have taken at once: by induction on the
host turns, each of which leaves the busy block. -/
theorem run_hosts_then_engine {ks : List Nat} {s : State} {ts : List Turn} (hp : s.block.phase = .busy)
    (hturns : s.turns = ks.map .host ++ .engine :: ts) :
    ∃ t, Host.Core.run Sys2Proof.core (ks.length + 1) s = .next t ∧
      t.block = Block.transitionOf s.block.op s.block ∧ t.turns = ts := by
  induction ks generalizing s with
  | nil =>
    have hn : s.nextTurn = .engine := by simp [State.nextTurn, hturns]
    exact ⟨_, run_succ 0 (step_transition hn hp), rfl, congrArg List.tail hturns⟩
  | cons k ks ih =>
    have hn : s.nextTurn = .host k := by simp [State.nextTurn, hturns]
    obtain ⟨u, hu⟩ := everyStepAnswersANextState s
    have hblock : u.block = s.block := readsAndBusyAccessesLeaveTheBlock s u k hn hu (.inl hp)
    have hrest : u.turns = ks.map .host ++ .engine :: ts := by rw [step_turns hu, hturns]; rfl
    obtain ⟨t, hrun, htransition, hts⟩ := ih (hblock ▸ hp) hrest
    exact ⟨t, (run_succ _ hu).trans hrun, hblock ▸ htransition, hts⟩

/-- Settles O32: after the host turns the engine takes the transition of the command in progress. -/
theorem hostAccessesDoNotDisturbTheCommand : Obligations.HostAccessesDoNotDisturbTheCommand := by
  intro ks s ts hp hturns
  obtain ⟨t, hrun, hblock, hts⟩ := run_hosts_then_engine hp hturns
  exact ⟨t, _, hrun, exec_busy s.block.op s hp rfl, hblock, hts⟩

/-! The end of a `POLL` (44_host_api.md R170). -/

/-- Left to the engine, every command in progress completes, with nothing else moved (R236): the others in one
transition, and `BOUNDED` in its draws. -/
theorem run_to_idle {s : State} (hinv : s.block.Inv) (hturns : s.turns = []) :
    ∃ n t, Host.Core.run Sys2Proof.core n s = .next t ∧ t.block.phase = .idle ∧ t.masters = s.masters ∧
      t.turns = [] := by
  cases hp : s.block.phase with
  | idle => exact ⟨0, s, rfl, hp, rfl, hturns⟩
  | busy =>
    by_cases hop : s.block.op = .bounded
    · obtain ⟨hbound, hthresh⟩ := hinv.2 hp hop
      obtain ⟨n, a, r, -, -, -, hrun⟩ := run_bounded_completes hturns hp hop hbound hthresh
      exact ⟨n, _, hrun, rfl, rfl, hturns⟩
    · exact ⟨1, _, run_succ 0 (step_transition (State.nextTurn_busy hturns hp) hp),
        Block.transitionOf_phase_of_ne_bounded hop _, rfl, congrArg List.tail hturns⟩

/-- The `POLL` of host `k` that has `rest` after it ends in some run from `s`, reading `BUSY = 0`. -/
def PollEnds (k : Nat) (rest : List HostOp) (s : State) : Prop :=
  ∃ n t v, Host.Core.run Sys2Proof.core n s = .next t ∧ (t.master k).pending = rest ∧
    (t.master k).answers.head? = some (.data v) ∧ v.getLsbD 0 = false ∧ t.block.phase = .idle

section
variable {k : Nat} {rest : List HostOp} {s : State}

/-- A `POLL` that ends after a run ends. -/
theorem PollEnds.of_run {n : Nat} {u : State} (hrun : Host.Core.run Sys2Proof.core n s = .next u)
    (hu : PollEnds k rest u) : PollEnds k rest s := by
  obtain ⟨m, t, v, hrest, ht⟩ := hu
  exact ⟨n + m, t, v, (run_add n m hrun).trans hrest, ht⟩

/-- On its host's turn, a `POLL` that finds the block idle ends. -/
theorem pollEnds_of_idle (hh : (s.master k).pending = .poll :: rest) (hn : s.nextTurn = .host k)
    (hp : s.block.phase = .idle) : PollEnds k rest s := by
  have hbit : s.block.status.getLsbD 0 = false := by
    rw [Bool.eq_false_iff, Ne, status_bit_zero, hp]
    exact nofun
  exact ⟨1, _, _, run_succ 0 (step_poll_idle hn hh hp), by simp, by simp, hbit, hp⟩

/-- Any other step leaves the `POLL` its host's oldest access. -/
theorem step_keeps_poll {t : State} (hh : (s.master k).pending = .poll :: rest) (h : step s = .next t)
    (hends : ¬ (s.nextTurn = .host k ∧ s.block.phase = .idle)) : (t.master k).pending = .poll :: rest := by
  obtain ⟨hosts, others⟩ := eachHostKeepsItsOwnStream
  cases hn : s.nextTurn with
  | engine => rw [others s t (.inl hn) h k, hh]
  | reset => rw [others s t (.inr hn) h k, hh]
  | host j =>
    by_cases hj : k = j
    · subst hj
      cases hp : s.block.phase with
      | idle => exact absurd ⟨hn, hp⟩ hends
      | busy =>
        rw [step_poll_busy hn hh hp] at h
        cases h
        simp
    · rw [step_host_others hn h hj, hh]

/-- How many accesses the hosts before host `k` have pending. -/
def accessesBefore (k : Nat) (s : State) : Nat := ∑ j ∈ Finset.range k, (s.master j).pending.length

/-- A turn of a host before host `k` that has an access pending performs one, the block being idle, so that no
`POLL` goes on. -/
theorem accessesBefore_lt {j : Nat} {t : State} (hj : j < k) (hn : s.nextTurn = .host j)
    (hp : s.block.phase = .idle) (hh : (s.master j).pending ≠ []) (h : step s = .next t) :
    accessesBefore k t < accessesBefore k s := by
  obtain ⟨hsuffix, -, hsame⟩ := step_host_own hn h
  have hne : (t.master j).pending ≠ (s.master j).pending := fun hsame' => by
    rcases hsame hsame' with hempty | ⟨hbusy, -⟩
    · exact hh hempty
    · exact absurd (hp.symm.trans hbusy) nofun
  have hlt : (t.master j).pending.length < (s.master j).pending.length :=
    Nat.lt_of_le_of_ne hsuffix.length_le fun hlen => hne (hsuffix.eq_of_length hlen)
  refine Finset.sum_lt_sum (fun i _ => ?_) ⟨j, Finset.mem_range.2 hj, hlt⟩
  by_cases hi : i = j
  · exact hi ▸ hlt.le
  · rw [step_host_others hn h hi]

/-- In the default order the first host with an access pending is host `k`, which has its `POLL`, or one before it. -/
theorem exists_first_pending (hh : (s.master k).pending ≠ []) : ∃ j, j ≤ k ∧ (s.master j).pending ≠ [] ∧
    ∀ i, i < j → (s.master i).pending = [] := by
  classical
  have hex : ∃ j, (s.master j).pending ≠ [] := ⟨k, hh⟩
  exact ⟨Nat.find hex, Nat.find_min' hex hh, Nat.find_spec hex, fun i hi => not_not.1 (Nat.find_min hex hi)⟩

end

/-- In the default order every `POLL` ends: by induction on what the hosts before it have pending. While `BUSY` the
engine completes the command; then the `POLL` ends, or a host before it performs an access. -/
theorem pollEnds_default {k : Nat} {rest : List HostOp} {s : State} (hinv : s.block.Inv) (hturns : s.turns = [])
    (hh : (s.master k).pending = .poll :: rest) : PollEnds k rest s := by
  induction hm : accessesBefore k s using Nat.strong_induction_on generalizing s with
  | _ m ih =>
  obtain ⟨n, u, hrun, hidle, hmasters, hturns'⟩ := run_to_idle hinv hturns
  refine PollEnds.of_run hrun ?_
  have hmaster (i : Nat) : u.master i = s.master i := congrArg (masterAt · i) hmasters
  have hu : (u.master k).pending = .poll :: rest := by rw [hmaster, hh]
  obtain ⟨j, hjk, hpending, hlow⟩ := exists_first_pending (s := u) (k := k) (by simp [hu])
  have hn : u.nextTurn = .host j := State.nextTurn_idle hturns' hidle hlow hpending
  rcases Nat.eq_or_lt_of_le hjk with rfl | hlt
  · exact pollEnds_of_idle hu hn hidle
  · obtain ⟨w, hw⟩ := everyStepAnswersANextState u
    have hfewer : accessesBefore k w < m := by
      have hsame : accessesBefore k u = m := by simp only [accessesBefore, hmaster, ← hm]
      exact hsame ▸ accessesBefore_lt hlt hn hidle hpending hw
    have hother : ¬ (u.nextTurn = .host k ∧ u.block.phase = .idle) := by
      rintro ⟨hk, -⟩
      exact hlt.ne (Turn.host.inj (hn.symm.trans hk))
    refine PollEnds.of_run (run_succ 0 hw) (ih _ hfewer ?_ ?_ (step_keeps_poll hu hw hother) rfl)
    · exact everyStepKeepsTheInvariant u w (Block.inv_of_idle hidle) hw
    · rw [step_turns hw, hturns']
      rfl

/-- Settles O31: by induction on the prescribed turns, until the `POLL` ends or none is left. -/
theorem everyPollEnds : Obligations.EveryPollEnds := by
  intro s k rest hinv hh
  change PollEnds k rest s
  induction hturns : s.turns generalizing s with
  | nil => exact pollEnds_default hinv hturns hh
  | cons turn ts ih =>
    by_cases hends : s.nextTurn = .host k ∧ s.block.phase = .idle
    · exact pollEnds_of_idle hh hends.1 hends.2
    · obtain ⟨t, ht⟩ := everyStepAnswersANextState s
      refine PollEnds.of_run (run_succ 0 ht) (ih t (everyStepKeepsTheInvariant s t hinv ht)
        (step_keeps_poll hh ht hends) ?_)
      rw [step_turns ht, hturns]
      rfl

end Sys2Proof.Machine
end

section
/-! SUPPORT. Runs of one host's accesses: whose turn it is (log entry 2), and what a run leaves of the other hosts.
The engine's transitions between the accesses are part of a run. -/

namespace Sys2Proof.Machine

/-- No turn is prescribed, and the hosts before host `k` have nothing pending. -/
def DefaultOrder (k : Nat) (s : State) : Prop := s.turns = [] ∧ ∀ j, j < k → (s.master j).pending = []

/-- The turns `ts` come next, as prescribed or because they are those of the default order: in which host `k` moves
while the block is idle, and the engine while it is busy. -/
def Scheduled (k : Nat) (ts : List Turn) (s : State) : Prop := (∃ us, s.turns = ts ++ us) ∨ DefaultOrder k s

/-- `n` steps in which no host but host `k` moved. -/
structure HostRun (k n : Nat) (s t : State) : Prop where
  run : Host.Core.run Sys2Proof.core n s = .next t
  turns : t.turns = s.turns.drop n
  others : ∀ j, j ≠ k → t.master j = s.master j

section
variable {k n m : Nat} {s t u : State}

theorem HostRun.trans (h : HostRun k n s t) (h' : HostRun k m t u) : HostRun k (n + m) s u where
  run := (run_add n m h.run).trans h'.run
  turns := by rw [h'.turns, h.turns, List.drop_drop]
  others j hj := (h'.others j hj).trans (h.others j hj)

theorem HostRun.of_host (hn : s.nextTurn = .host k) (h : step s = .next t) : HostRun k 1 s t where
  run := run_succ 0 h
  turns := by rw [step_turns h, List.drop_one]
  others _ hj := step_host_others hn h hj

theorem HostRun.of_engine (hn : s.nextTurn = .engine) (h : step s = .next t) : HostRun k 1 s t where
  run := run_succ 0 h
  turns := by rw [step_turns h, List.drop_one]
  others j _ := congrArg (masterAt · j) (step_leaves_hosts (.inl hn) h)

theorem HostRun.defaultOrder (h : HostRun k n s t) (hs : DefaultOrder k s) : DefaultOrder k t := by
  obtain ⟨hturns, hlow⟩ := hs
  refine ⟨by rw [h.turns, hturns, List.drop_nil], fun j hj => ?_⟩
  rw [h.others j hj.ne]
  exact hlow j hj

/-- After the turns of a run the others are due. -/
theorem HostRun.scheduled {ts us : List Turn} (h : HostRun k n s t) (hlen : ts.length = n)
    (hs : Scheduled k (ts ++ us) s) : Scheduled k us t := by
  rcases hs with ⟨vs, hturns⟩ | hdefault
  · exact .inl ⟨vs, by rw [h.turns, hturns, List.append_assoc, ← hlen, List.drop_left]⟩
  · exact .inr (h.defaultOrder hdefault)

theorem Scheduled.nextTurn_host {ts : List Turn} (hs : Scheduled k (.host k :: ts) s) (hp : s.block.phase = .idle)
    (hh : (s.master k).pending ≠ []) : s.nextTurn = .host k := by
  rcases hs with ⟨us, hturns⟩ | ⟨hturns, hlow⟩
  · simp [State.nextTurn, hturns]
  · exact State.nextTurn_idle hturns hp hlow hh

theorem Scheduled.nextTurn_engine {ts : List Turn} (hs : Scheduled k (.engine :: ts) s)
    (hp : s.block.phase = .busy) : s.nextTurn = .engine := by
  rcases hs with ⟨us, hturns⟩ | ⟨hturns, -⟩
  · simp [State.nextTurn, hturns]
  · exact State.nextTurn_busy hturns hp

/-! One access, or one transition, of a run (44_host_api.md). -/

variable {ts : List Turn} {rest : List HostOp}

theorem hostRun_write {r : Reg} {v : Word} (hs : Scheduled k (.host k :: ts) s) (hp : s.block.phase = .idle)
    (hh : (s.master k).pending = AsmLine.access (.wr r v) :: rest) (hr : r.readOnly = false) (hc : r ≠ .cmd) :
    ∃ t, HostRun k 1 s t ∧ (t.master k).pending = rest ∧ t.block = s.block.writeReg r v := by
  have hn := hs.nextTurn_host hp (by simp [hh])
  exact ⟨_, .of_host hn (step_writes hn hp hh hr hc), by simp, rfl⟩

theorem hostRun_command {i : Instr} (hs : Scheduled k (.host k :: ts) s) (hp : s.block.phase = .idle)
    (hh : (s.master k).pending = AsmLine.access (.cmd i) :: rest) :
    ∃ t, HostRun k 1 s t ∧ (t.master k).pending = rest ∧ t.block = Block.startOf i s.block := by
  have hn := hs.nextTurn_host hp (by simp [hh])
  have hstep : step s = .next { s.answered k rest .written with block := Block.startOf i s.block } := by
    rw [step_issues hn hp hh, issueWord_encode, exec_idle i (s.answered k rest .written) hp]
    rfl
  exact ⟨_, .of_host hn hstep, by simp, rfl⟩

theorem hostRun_transition (hs : Scheduled k (.engine :: ts) s) (hp : s.block.phase = .busy) :
    ∃ t, HostRun k 1 s t ∧ t.master k = s.master k ∧ t.block = Block.transitionOf s.block.op s.block := by
  have hn := hs.nextTurn_engine hp
  exact ⟨_, .of_engine hn (step_transition hn hp), rfl, rfl⟩

theorem hostRun_poll (hs : Scheduled k (.host k :: ts) s) (hp : s.block.phase = .idle)
    (hh : (s.master k).pending = .poll :: rest) :
    ∃ t, HostRun k 1 s t ∧ (t.master k).pending = rest ∧
      (t.master k).answers.head? = some (.data s.block.status) ∧ t.block = s.block := by
  have hn := hs.nextTurn_host hp (by simp [hh])
  exact ⟨_, .of_host hn (step_poll_idle hn hh hp), by simp, by simp, rfl⟩

theorem hostRun_read {r : Reg} {v : Word} (hs : Scheduled k (.host k :: ts) s) (hp : s.block.phase = .idle)
    (hh : (s.master k).pending = AsmLine.access (.rd r) :: rest) (hv : s.block.readReg r = some v) :
    ∃ t, HostRun k 1 s t ∧ (t.master k).pending = rest ∧
      (t.master k).answers = .data v :: (s.master k).answers ∧ t.block = s.block := by
  have hn := hs.nextTurn_host hp (by simp [hh])
  exact ⟨_, .of_host hn (step_reads hn hh hv), by simp, by simp, rfl⟩

/-- `STATUS.ERRCODE` is the code of `ERRCODE` (10_state.md R30). -/
theorem statusErrcode_status (b : Block) : statusErrcode b.status = b.errcode.code := by
  obtain ⟨-, -, hcode, -⟩ := statusWordFields b
  exact hcode

theorem hostRun_check_passes (hs : Scheduled k (.host k :: ts) s) (hp : s.block.phase = .idle)
    (hh : (s.master k).pending = .failIfBoundZero n :: rest) (herr : s.block.errcode = .ok) :
    ∃ t, HostRun k 1 s t ∧ (t.master k).pending = rest ∧ t.block = s.block := by
  have hn := hs.nextTurn_host hp (by simp [hh])
  have hcode : statusErrcode s.block.status ≠ ErrCode.boundZero.code := by
    rw [statusErrcode_status, herr]
    decide
  exact ⟨_, .of_host hn (step_check_passes hn hh hcode), by simp, rfl⟩

theorem hostRun_check_fails (hs : Scheduled k (.host k :: ts) s) (hp : s.block.phase = .idle)
    (hh : (s.master k).pending = .failIfBoundZero n :: rest) (herr : s.block.errcode = .boundZero) :
    ∃ t, HostRun k 1 s t ∧ (t.master k).pending = rest.drop n ∧
      (t.master k).answers.head? = some (.callFailed .boundZero) ∧ t.block = s.block := by
  have hn := hs.nextTurn_host hp (by simp [hh])
  have hcode : statusErrcode s.block.status = ErrCode.boundZero.code := by rw [statusErrcode_status, herr]
  exact ⟨_, .of_host hn (step_check_fails hn hh hcode), by simp, by simp, rfl⟩

end

end Sys2Proof.Machine
end

section
/-! PROOFS. The statements on the pseudo-instructions (44_host_api.md), assembled from the runs of their parts: the
writes of the operands, a command with its `POLL`, and reads. -/

namespace Sys2Proof.Machine

section
variable {k : Nat} {s : State} {ts : List Turn} {rest : List HostOp}

/-! The parts. -/

/-- Writes of operand registers, in their order (20_memory.md R64, R65). -/
theorem run_writes {ws : List (Reg × Word)} (hs : Scheduled k (List.replicate ws.length (.host k)) s)
    (hp : s.block.phase = .idle)
    (hh : (s.master k).pending = ws.map (fun w => AsmLine.access (.wr w.1 w.2)) ++ rest)
    (hw : ∀ w ∈ ws, w.1.readOnly = false ∧ w.1 ≠ .cmd) :
    ∃ t, HostRun k ws.length s t ∧ (t.master k).pending = rest ∧
      t.block = ws.foldl (fun b w => b.writeReg w.1 w.2) s.block := by
  induction ws generalizing s with
  | nil => exact ⟨s, ⟨rfl, rfl, fun _ _ => rfl⟩, hh, rfl⟩
  | cons w ws ih =>
    obtain ⟨⟨hr, hc⟩, hws⟩ := List.forall_mem_cons.1 hw
    obtain ⟨t, r₁, h₁, b₁⟩ := hostRun_write hs hp hh hr hc
    obtain ⟨-, -, -, -, hphase, -⟩ := s.block.writeReg_frame w.1 w.2
    obtain ⟨u, r₂, h₂, b₂⟩ := ih (r₁.scheduled (ts := [.host k]) rfl hs) (by rw [b₁, hphase, hp]) h₁ hws
    refine ⟨u, ?_, h₂, by rw [b₂, b₁]; rfl⟩
    rw [List.length_cons, Nat.add_comm]
    exact r₁.trans r₂

/-- The four writes of `ARG0` and `ARG1` (R171, R174). -/
theorem run_write_operands {a b : DWord} (hs : Scheduled k (List.replicate 4 (.host k)) s)
    (hp : s.block.phase = .idle)
    (hh : (s.master k).pending = writePair .arg0Lo .arg0Hi a ++ writePair .arg1Lo .arg1Hi b ++ rest) :
    ∃ t, HostRun k 4 s t ∧ (t.master k).pending = rest ∧ t.block = { s.block with arg0 := a, arg1 := b } := by
  let halves : List (Reg × Word) :=
    [(.arg0Lo, loHalf a), (.arg0Hi, hiHalf a), (.arg1Lo, loHalf b), (.arg1Hi, hiHalf b)]
  obtain ⟨t, hrun, hrest, hblock⟩ := run_writes (ws := halves) hs hp hh (by simp [halves, Reg.readOnly])
  exact ⟨t, hrun, hrest, by simp [hblock, halves, Block.writeReg]⟩

/-- A command of one transition, written and polled for (R170): the write starts it, the engine completes it, and
the `POLL` reads a `STATUS` of 0. -/
theorem run_command_poll {i : Instr} (hi : i ≠ .bounded) (hs : Scheduled k [.host k, .engine, .host k] s)
    (hp : s.block.phase = .idle) (hh : (s.master k).pending = AsmLine.access (.cmd i) :: .poll :: rest) :
    ∃ t, HostRun k 3 s t ∧ (t.master k).pending = rest ∧ (t.master k).answers.head? = some (.data 0#32) ∧
      t.block = Block.transitionOf i (s.block.start i) := by
  obtain ⟨t₁, r₁, h₁, b₁⟩ := hostRun_command hs hp hh
  have s₁ := r₁.scheduled (ts := [.host k]) rfl hs
  rw [Block.startOf_of_ne_bounded hi] at b₁
  obtain ⟨t₂, r₂, m₂, b₂⟩ := hostRun_transition s₁ (by simp [b₁])
  have s₂ := r₂.scheduled (ts := [.engine]) rfl s₁
  simp only [b₁, Block.start_op] at b₂
  have hidle : t₂.block.phase = .idle := by rw [b₂, Block.transitionOf_phase_of_ne_bounded hi]
  have hok : t₂.block.errcode = .ok := by rw [b₂, Block.transitionOf_errcode, Block.start_errcode]
  obtain ⟨t₃, r₃, h₃, a₃, b₃⟩ := hostRun_poll s₂ hidle (m₂ ▸ h₁)
  rw [Block.status_eq_zero hidle hok] at a₃
  exact ⟨t₃, (r₁.trans r₂).trans r₃, h₃, a₃, b₃.trans b₂⟩

/-- Reads of registers that have a value (R175): the answers stand in the reverse order. -/
theorem run_reads {rs : List (Reg × Word)} (hs : DefaultOrder k s) (hp : s.block.phase = .idle)
    (hh : (s.master k).pending = rs.map (fun r => AsmLine.access (.rd r.1)) ++ rest)
    (hv : ∀ r ∈ rs, s.block.readReg r.1 = some r.2) :
    ∃ t, HostRun k rs.length s t ∧ (t.master k).pending = rest ∧
      (t.master k).answers = rs.reverse.map (fun r => .data r.2) ++ (s.master k).answers ∧ t.block = s.block := by
  induction rs generalizing s with
  | nil => exact ⟨s, ⟨rfl, rfl, fun _ _ => rfl⟩, hh, rfl, rfl⟩
  | cons r rs ih =>
    obtain ⟨hr, hrs⟩ := List.forall_mem_cons.1 hv
    obtain ⟨t, r₁, h₁, a₁, b₁⟩ := hostRun_read (ts := []) (.inr hs) hp hh hr
    obtain ⟨u, r₂, h₂, a₂, b₂⟩ := ih (r₁.defaultOrder hs) (b₁ ▸ hp) h₁ (b₁ ▸ hrs)
    refine ⟨u, ?_, h₂, by simp [a₂, a₁], b₂.trans b₁⟩
    rw [List.length_cons, Nat.add_comm]
    exact r₁.trans r₂

/-- The operands, a command of one transition, and its `POLL` (R171, R174). -/
theorem run_operands_command_poll {a b : DWord} {i : Instr} (hi : i ≠ .bounded) (hs : DefaultOrder k s)
    (hp : s.block.phase = .idle)
    (hh : (s.master k).pending = writePair .arg0Lo .arg0Hi a ++ writePair .arg1Lo .arg1Hi b ++
      (AsmLine.access (.cmd i) :: .poll :: rest)) :
    ∃ t, HostRun k 7 s t ∧ (t.master k).pending = rest ∧
      t.block = Block.transitionOf i (({ s.block with arg0 := a, arg1 := b } : Block).start i) := by
  obtain ⟨t, r₁, h₁, b₁⟩ := run_write_operands (.inr hs) hp hh
  obtain ⟨u, r₂, h₂, -, b₂⟩ := run_command_poll hi (.inr (r₁.defaultOrder hs)) (b₁ ▸ hp) h₁
  exact ⟨u, r₁.trans r₂, h₂, b₁ ▸ b₂⟩

end

/-! The pseudo-instructions. -/

theorem pcgSrandom_append (a b : DWord) (rest : List HostOp) : pcgSrandom a b ++ rest =
    writePair .arg0Lo .arg0Hi a ++ writePair .arg1Lo .arg1Hi b ++
      (AsmLine.access (.cmd .seed) :: .poll :: rest) :=
  List.append_assoc _ _ rest

theorem pcgRestore_append (x y : DWord) (rest : List HostOp) : pcgRestore x y ++ rest =
    writePair .arg0Lo .arg0Hi x ++ writePair .arg1Lo .arg1Hi y ++
      (AsmLine.access (.cmd .loadst) :: .poll :: rest) :=
  List.append_assoc _ _ rest

/-- Settles O57: the operands, `SEED` and its `POLL`. -/
theorem pcgSrandomSeedsTheBlock : Obligations.PcgSrandomSeedsTheBlock := by
  intro s k a b rest hturns hp hlow hh
  obtain ⟨t, hrun, hrest, hblock⟩ := run_operands_command_poll (i := .seed) nofun ⟨hturns, hlow⟩ hp
    (hh.trans (pcgSrandom_append a b rest))
  refine ⟨t, hrun.run, hrest, ?_⟩
  rw [hblock, Block.transitionOf]
  exact ⟨rfl, Block.seedTransition_inc _, Block.seedTransition_acc _⟩

/-- Settles O56: the operands, `LOADST` and its `POLL`. -/
theorem pcgRestoreLoadsTheState : Obligations.PcgRestoreLoadsTheState := by
  intro s k x y rest hturns hp hlow hh
  obtain ⟨t, hrun, hrest, hblock⟩ := run_operands_command_poll (i := .loadst) nofun ⟨hturns, hlow⟩ hp
    (hh.trans (pcgRestore_append x y rest))
  have hinc : t.block.inc = y ||| 1#64 := by
    rw [hblock, Block.transitionOf]
    exact Block.loadTransition_inc _
  have hodd (h : y.getLsbD 0 = true) : y ||| 1#64 = y := by
    apply BitVec.eq_of_getLsbD_eq
    intro i _
    cases i <;> simp [BitVec.getLsbD_one, h]
  refine ⟨t, hrun.run, hrest, ?_, ?_, hinc, fun h => hinc.trans (hodd h), ?_⟩
  all_goals rw [hblock]; rfl

/-- Settles O58: `STEP` and its `POLL`, and the read of `RESULT`. -/
theorem pcgRandomReturnsTheNextOutput : Obligations.PcgRandomReturnsTheNextOutput := by
  intro s k rest hturns hp hlow hh
  have hdefault : DefaultOrder k s := ⟨hturns, hlow⟩
  obtain ⟨t, r₁, h₁, -, b₁⟩ := run_command_poll (i := .step) nofun (.inr hdefault) hp hh
  rw [Block.transitionOf, Block.stepTransition_eq] at b₁
  obtain ⟨u, r₂, h₂, a₂, b₂⟩ := hostRun_read (ts := []) (.inr (r₁.defaultOrder hdefault)) (by rw [b₁]) h₁
    (congrArg some (congrArg Block.result b₁))
  refine ⟨u, (r₁.trans r₂).run, h₂, ?_⟩
  rw [a₂, b₂, b₁]
  exact ⟨rfl, rfl, rfl, rfl⟩

/-- Settles O55: four reads, while idle, of the halves of `ACC` and `INC`. -/
theorem pcgSaveReadsTheWholeState : Obligations.PcgSaveReadsTheWholeState := by
  intro s k rest hturns hp hlow hh
  let halves : List (Reg × Word) := [(.accLo, loHalf s.block.acc), (.accHi, hiHalf s.block.acc),
    (.incLo, loHalf s.block.inc), (.incHi, hiHalf s.block.inc)]
  have hv : ∀ r ∈ halves, s.block.readReg r.1 = some r.2 := by simp [halves, Block.readReg, hp]
  obtain ⟨t, hrun, hrest, hanswers, hblock⟩ := run_reads (rs := halves) ⟨hturns, hlow⟩ hp hh hv
  refine ⟨t, hrun.run, hrest, hblock, ?_⟩
  rw [hanswers]
  simp [halves, savedState]

/-- Settles O59: the write of `BOUND` and the start of `BOUNDED`. With a zero bound the start is refused and the check
fails; otherwise the engine draws until a draw is accepted, and the check passes, the `POLL` ends and `RESULT` is
read. -/
theorem pcgBoundedrandFailsOnZeroAndElseReturns : Obligations.PcgBoundedrandFailsOnZeroAndElseReturns := by
  intro s k b rest hturns hp hlow hh
  have s₀ : DefaultOrder k s := ⟨hturns, hlow⟩
  obtain ⟨t₁, r₁, h₁, b₁⟩ := hostRun_write (ts := []) (.inr s₀) hp hh rfl nofun
  have s₁ := r₁.defaultOrder s₀
  rw [Block.writeReg] at b₁
  obtain ⟨t₂, r₂, h₂, b₂⟩ := hostRun_command (ts := []) (.inr s₁) (b₁ ▸ hp) h₁
  have s₂ := r₂.defaultOrder s₁
  rw [b₁, Block.startOf] at b₂
  refine ⟨fun hzero => ?zero, fun hne => ?nonzero⟩
  case zero =>
    rw [Block.boundedStart_zero _ hzero] at b₂
    obtain ⟨t₃, r₃, h₃, a₃, b₃⟩ := hostRun_check_fails (ts := []) (.inr s₂) (by rw [b₂]; exact hp) h₂ (by rw [b₂])
    exact ⟨t₃, ((r₁.trans r₂).trans r₃).run, h₃, a₃, by rw [b₃, b₂, hzero]⟩
  case nonzero =>
    rw [Block.boundedStart_nonzero _ hne] at b₂
    obtain ⟨n, a, r, -, -, hr, hdraws⟩ :=
      run_bounded_completes s₂.1 (by rw [b₂]) (by rw [b₂]) (by rw [b₂]; exact hne) (by rw [b₂])
    have r₃ : HostRun k n t₂ _ := ⟨hdraws, by simp [s₂.1], fun _ _ => rfl⟩
    have s₃ := r₃.defaultOrder s₂
    obtain ⟨t₄, r₄, h₄, b₄⟩ := hostRun_check_passes (ts := []) (.inr s₃) rfl h₂ (by simp [b₂])
    have s₄ := r₄.defaultOrder s₃
    obtain ⟨t₅, r₅, h₅, -, b₅⟩ := hostRun_poll (ts := []) (.inr s₄) (by rw [b₄]) h₄
    have s₅ := r₅.defaultOrder s₄
    obtain ⟨t₆, r₆, h₆, a₆, b₆⟩ := hostRun_read (r := .result) (v := r) (ts := []) (.inr s₅) (by rw [b₅, b₄]) h₅
      (by rw [b₅, b₄]; rfl)
    refine ⟨_, t₆, r, (((((r₁.trans r₂).trans r₃).trans r₄).trans r₅).trans r₆).run, h₆, ?_, ?_, ?_, ?_⟩
    · rw [b₆, b₅, b₄]
    · rw [a₆]
      rfl
    · rw [b₂] at hr
      exact hr
    · rw [b₆, b₅, b₄, b₂]
      rfl

/-- Settles O54: host `k`'s four writes come between host `j`'s four and its command, which takes the operands that
it finds. -/
theorem interleavedHostsCorruptEachOther : Obligations.InterleavedHostsCorruptEachOther := by
  intro s j k a b a' b' rest rest' ts hjk hp hj hk hturns
  rw [List.append_assoc, List.append_assoc] at hturns
  obtain ⟨t₁, r₁, h₁, b₁⟩ := run_write_operands (.inl ⟨_, hturns⟩) hp (hj.trans (pcgSrandom_append a b rest))
  have turns₁ := r₁.turns
  rw [hturns, List.drop_left' (by rw [List.length_replicate])] at turns₁
  have hk₁ := (congrArg Master.pending (r₁.others k hjk.symm)).trans hk
  obtain ⟨t₂, r₂, h₂, b₂⟩ := run_write_operands (.inl ⟨_, turns₁⟩) (b₁ ▸ hp)
    (hk₁.trans (pcgSrandom_append a' b' rest'))
  have turns₂ := r₂.turns
  rw [turns₁, List.drop_left' (by rw [List.length_replicate])] at turns₂
  have hj₂ := (congrArg Master.pending (r₂.others j hjk)).trans h₁
  obtain ⟨t₃, r₃, h₃, a₃, b₃⟩ := run_command_poll (i := .seed) nofun (.inl ⟨_, turns₂⟩)
    (by rw [b₂, b₁]; exact hp) hj₂
  have hrun : Host.Core.run Sys2Proof.core (4 + (4 + 3)) s = .next t₃ := by
    rw [run_add 4 _ r₁.run, run_add 4 _ r₂.run, r₃.run]
  refine ⟨t₃, hrun, ?_⟩
  rw [b₃, b₂, b₁, Block.transitionOf]
  exact ⟨rfl, rfl, h₃, a₃, Block.seedTransition_inc _, Block.seedTransition_acc _⟩

end Sys2Proof.Machine
end
